-- ==== Sys2Proof/Word.lean ====
section
/-! DEFINITION. The two data widths of the block (spec 00_scope.md section 5): the byte `u8` and the word `u32`. -/

namespace Sys2Proof

/-- `u8`, values 0..255. -/
abbrev Byte := BitVec 8

/-- `u32`, four bytes: every register, every word operand, every global address and every text-local offset. -/
abbrev Word := BitVec 32

end Sys2Proof
end

