-- ==== Sys2Proof/Config.lean ====
section
/-! DEFINITION. The configuration inputs of the block, constant for its life (spec 00_scope.md rules R3 to R6,
70_reset_and_hazards.md rule R228): the three region sizes, `PUSH_STRIDE` and `OPCODE_MAP`. -/

namespace Sys2Proof

/-- The three byte regions (20_memory.md rule R30, in the order of their addresses). -/
inductive Region where
  | stack
  | data
  | text
  deriving DecidableEq, Repr

/-- `PUSH_STRIDE`, the bytes by which PUSH, CALL and ENT lower `sp`; 4 and 5 are the two legal values (R5). -/
inductive PushStride where
  | four
  | five
  deriving DecidableEq, Repr

/-- `PUSH_STRIDE` as the word subtracted from `sp`. -/
def PushStride.bytes : PushStride → Word
  | .four => 4
  | .five => 5

/-- `OPCODE_MAP` (R6): one opcode byte for each of the 38 mnemonics, under the mnemonic's name. -/
structure OpcodeMap where
  imm : Byte
  lc : Byte
  li : Byte
  sc : Byte
  si : Byte
  push : Byte
  jmp : Byte
  jz : Byte
  jnz : Byte
  call : Byte
  ent : Byte
  adj : Byte
  lev : Byte
  lea : Byte
  or : Byte
  xor : Byte
  and : Byte
  eq : Byte
  ne : Byte
  lt : Byte
  gt : Byte
  le : Byte
  ge : Byte
  shl : Byte
  shr : Byte
  add : Byte
  sub : Byte
  mul : Byte
  div : Byte
  mod : Byte
  open_ : Byte
  read : Byte
  clos : Byte
  prtf : Byte
  malc : Byte
  mset : Byte
  mcmp : Byte
  exit : Byte
  deriving DecidableEq, Repr

/-- The five configuration constants (R228). -/
structure Config where
  stackSize : Nat
  dataSize : Nat
  textSize : Nat
  pushStride : PushStride
  opcodeMap : OpcodeMap
  deriving DecidableEq, Repr

/-- `STACK_BASE` (R3). -/
def Config.stackBase (_ : Config) : Nat := 0

/-- `DATA_BASE` (R3). -/
def Config.dataBase (c : Config) : Nat := c.stackSize

/-- `TEXT_BASE` (R3). -/
def Config.textBase (c : Config) : Nat := c.stackSize + c.dataSize

/-- `END`, one past the last valid global address (R3). -/
def Config.endAddr (c : Config) : Nat := c.stackSize + c.dataSize + c.textSize

/-- The size in bytes of a region (R18). -/
def Config.sizeOf (c : Config) : Region → Nat
  | .stack => c.stackSize
  | .data => c.dataSize
  | .text => c.textSize

/-- The global address of a region's first byte (R30). -/
def Config.baseOf (c : Config) : Region → Nat
  | .stack => c.stackBase
  | .data => c.dataBase
  | .text => c.textBase

end Sys2Proof
end

