-- ==== Sys2Proof/Syntax.lean ====
section
/-! DEFINITION. The instruction set (spec 30_encoding.md): `Instr`, one constructor per row of opcode_table.json,
the three formats, and `AsmInstr`, an instruction together with its operand as a listing writes it.

`Instr` names the HANDLER an opcode byte selects and carries no operand, because in this block the operand takes no part
in decoding (R65), a handler receives no argument from the dispatcher (R85) and itself reads its operand bytes from the
text region when its pseudocode says so (R87). For CALL and ENT that is after a store which may overwrite them (R202), and
for a JZ or JNZ not taken it is never (R121, R122). An operand bound at decode time would be wrong in both cases. -/

namespace Sys2Proof

/-- The 38 instructions, in the order of the opcode table (R64). -/
inductive Instr where
  /-- IMM (41_load_store.md rule R100), format OP_W. -/
  | imm
  /-- LC (41_load_store.md rule R101), format OP. -/
  | lc
  /-- LI (41_load_store.md rule R102), format OP. -/
  | li
  /-- SC (41_load_store.md rule R103), format OP. -/
  | sc
  /-- SI (41_load_store.md rule R104), format OP. -/
  | si
  /-- PUSH (41_load_store.md rule R105), format OP. -/
  | push
  /-- JMP (42_control_frame.md rule R120), format OP_W. -/
  | jmp
  /-- JZ (42_control_frame.md rule R121), format OP_W. -/
  | jz
  /-- JNZ (42_control_frame.md rule R122), format OP_W. -/
  | jnz
  /-- CALL (42_control_frame.md rule R123), format OP_W. -/
  | call
  /-- ENT (42_control_frame.md rule R124), format OP_W. -/
  | ent
  /-- ADJ (42_control_frame.md rule R125), format OP_W. -/
  | adj
  /-- LEV (42_control_frame.md rule R126), format OP. -/
  | lev
  /-- LEA (42_control_frame.md rule R127), format OP_B. -/
  | lea
  /-- OR (43_binary_ops.md rule R141), format OP. -/
  | or
  /-- XOR (43_binary_ops.md rule R142), format OP. -/
  | xor
  /-- AND (43_binary_ops.md rule R143), format OP. -/
  | and
  /-- EQ (43_binary_ops.md rule R144), format OP. -/
  | eq
  /-- NE (43_binary_ops.md rule R145), format OP. -/
  | ne
  /-- LT (43_binary_ops.md rule R146), format OP. -/
  | lt
  /-- GT (43_binary_ops.md rule R147), format OP. -/
  | gt
  /-- LE (43_binary_ops.md rule R148), format OP. -/
  | le
  /-- GE (43_binary_ops.md rule R149), format OP. -/
  | ge
  /-- SHL (43_binary_ops.md rule R150), format OP. -/
  | shl
  /-- SHR (43_binary_ops.md rule R151), format OP. -/
  | shr
  /-- ADD (43_binary_ops.md rule R152), format OP. -/
  | add
  /-- SUB (43_binary_ops.md rule R153), format OP. -/
  | sub
  /-- MUL (43_binary_ops.md rule R154), format OP. -/
  | mul
  /-- DIV (43_binary_ops.md rule R155), format OP. -/
  | div
  /-- MOD (43_binary_ops.md rule R156), format OP. -/
  | mod
  /-- OPEN (44_hostcall_reserved.md rule R170), format OP. -/
  | open_
  /-- READ (44_hostcall_reserved.md rule R171), format OP. -/
  | read
  /-- CLOS (44_hostcall_reserved.md rule R172), format OP. -/
  | clos
  /-- PRTF (44_hostcall_reserved.md rule R173), format OP. -/
  | prtf
  /-- MALC (44_hostcall_reserved.md rule R174), format OP. -/
  | malc
  /-- MSET (44_hostcall_reserved.md rule R175), format OP. -/
  | mset
  /-- MCMP (44_hostcall_reserved.md rule R176), format OP. -/
  | mcmp
  /-- EXIT (44_hostcall_reserved.md rule R177), format OP. -/
  | exit
  deriving DecidableEq, Repr

/-- Every instruction, in table order. -/
def Instr.all : List Instr :=
  [.imm, .lc, .li, .sc, .si, .push]
    ++ [.jmp, .jz, .jnz, .call, .ent, .adj, .lev, .lea]
    ++ [.or, .xor, .and, .eq, .ne, .lt, .gt, .le, .ge, .shl, .shr, .add, .sub, .mul, .div, .mod]
    ++ [.open_, .read, .clos, .prtf, .malc, .mset, .mcmp, .exit]

/-- The three formats of R61: opcode only, opcode and byte operand, opcode and word operand. -/
inductive Format where
  | op
  | opB
  | opW
  deriving DecidableEq, Repr

/-- The format of each instruction (R61, R64). -/
def Instr.format : Instr → Format
  | .imm => .opW
  | .jmp => .opW
  | .jz => .opW
  | .jnz => .opW
  | .call => .opW
  | .ent => .opW
  | .adj => .opW
  | .lea => .opB
  | .lc | .li | .sc | .si | .push | .lev | .or | .xor | .and | .eq | .ne | .lt
  | .gt | .le | .ge | .shl | .shr | .add | .sub | .mul | .div | .mod
  | .open_ | .read | .clos | .prtf | .malc | .mset | .mcmp | .exit => .op

/-- The length in bytes of an instruction of a format (R60). -/
def Format.length : Format → Nat
  | .op => 1
  | .opB => 2
  | .opW => 5

/-- The opcode byte `OPCODE_MAP` gives an instruction (R6). -/
def OpcodeMap.byteOf (m : OpcodeMap) : Instr → Byte
  | .imm => m.imm
  | .lc => m.lc
  | .li => m.li
  | .sc => m.sc
  | .si => m.si
  | .push => m.push
  | .jmp => m.jmp
  | .jz => m.jz
  | .jnz => m.jnz
  | .call => m.call
  | .ent => m.ent
  | .adj => m.adj
  | .lev => m.lev
  | .lea => m.lea
  | .or => m.or
  | .xor => m.xor
  | .and => m.and
  | .eq => m.eq
  | .ne => m.ne
  | .lt => m.lt
  | .gt => m.gt
  | .le => m.le
  | .ge => m.ge
  | .shl => m.shl
  | .shr => m.shr
  | .add => m.add
  | .sub => m.sub
  | .mul => m.mul
  | .div => m.div
  | .mod => m.mod
  | .open_ => m.open_
  | .read => m.read
  | .clos => m.clos
  | .prtf => m.prtf
  | .malc => m.malc
  | .mset => m.mset
  | .mcmp => m.mcmp
  | .exit => m.exit

/-- The operand of an instruction as a listing writes it (R70): none, LEA's signed number, or a 32-bit number. -/
inductive Operand where
  | absent
  | offset (off : Int)
  | word (imm : Nat)
  deriving DecidableEq, Repr

/-- An instruction with its operand: what a listing shows, what the text region holds and what `decode` reads. -/
structure AsmInstr where
  op : Instr
  operand : Operand
  deriving DecidableEq, Repr

end Sys2Proof
end

