-- ==== Sys2Proof/WellFormed.lean ====
section
/-! DEFINITION. What is well formed: an instruction whose operand is one its format takes, in range (spec 30_encoding.md
rules R61, R70), and a configuration that meets the constraints of 00_scope.md rules R4 and R6. -/

namespace Sys2Proof

/-- The operand is of the format's kind and in its range (R70): a number in 0..2^32-1 for `OP_W`, in -128..127 for LEA,
nothing for `OP`. -/
def AsmInstr.wellFormed (a : AsmInstr) : Bool :=
  match a.op.format, a.operand with
  | .op, .absent => true
  | .opB, .offset off => decide (-128 ≤ off) && decide (off ≤ 127)
  | .opW, .word imm => decide (imm < 2 ^ 32)
  | _, _ => false

/-- `OPCODE_MAP` is injective (R6). -/
def OpcodeMap.injective (m : OpcodeMap) : Bool :=
  decide (Instr.all.map m.byteOf).Nodup

/-- The region sizes meet R4: every region exists and `END <= 2^32 - 8`. -/
def Config.sizesLegal (c : Config) : Bool :=
  decide (1 ≤ c.stackSize) && decide (1 ≤ c.dataSize) && decide (1 ≤ c.textSize) && decide (c.endAddr ≤ 2 ^ 32 - 8)

/-- A configuration a block can be built with (R4, R6; the stride is legal by its type, R5). -/
def Config.legal (c : Config) : Bool :=
  c.sizesLegal && c.opcodeMap.injective

end Sys2Proof
end

