-- ==== Sys2Proof/Decode.lean ====
section
/-! DEFINITION. The default opcode map, the decoder, the encoder and the assembler of listings
(spec 30_encoding.md rules R60 to R72), and the byte-order and extension helpers they share with the machine. -/

namespace Sys2Proof

/-- The default `OPCODE_MAP`, 0x00 (IMM) to 0x25 (EXIT) in table order (R64). -/
def OpcodeMap.reference : OpcodeMap :=
  { imm := 0x00, lc := 0x01, li := 0x02, sc := 0x03,
    si := 0x04, push := 0x05, jmp := 0x06, jz := 0x07,
    jnz := 0x08, call := 0x09, ent := 0x0A, adj := 0x0B,
    lev := 0x0C, lea := 0x0D, or := 0x0E, xor := 0x0F,
    and := 0x10, eq := 0x11, ne := 0x12, lt := 0x13,
    gt := 0x14, le := 0x15, ge := 0x16, shl := 0x17,
    shr := 0x18, add := 0x19, sub := 0x1A, mul := 0x1B,
    div := 0x1C, mod := 0x1D, open_ := 0x1E, read := 0x1F,
    clos := 0x20, prtf := 0x21, malc := 0x22, mset := 0x23,
    mcmp := 0x24, exit := 0x25 }

/-- Four bytes as a word, `b0 ++ b1 ++ b2 ++ b3`, most significant byte first (20_memory.md R35, R39). -/
def wordOfBytes (b0 b1 b2 b3 : Byte) : Word := b0 ++ b1 ++ b2 ++ b3

/-- Byte `k` of a word's big-endian image (R39): byte 0 is `w[31:24]`, byte 3 is `w[7:0]`. -/
def byteOfWord (w : Word) (k : Nat) : Byte := w.extractLsb' (8 * (3 - k)) 8

/-- `zext32` (00_scope.md section 5). -/
def zext32 (b : Byte) : Word := b.setWidth 32

/-- `sext32_8` (00_scope.md section 5). -/
def sext32 (b : Byte) : Word := b.signExtend 32

/-- `Decode` (R65): the mnemonic whose opcode byte is `b`, and `none` for `Unknown`. -/
def decodeOpcode (m : OpcodeMap) (b : Byte) : Option Instr :=
  Instr.all.find? fun i => m.byteOf i == b

/-- Why a byte string is no instruction. -/
inductive DecodeError where
  /-- there is no opcode byte -/
  | noBytes
  /-- no mnemonic has this opcode byte (R66) -/
  | unknownOpcode (b : Byte)
  /-- the bytes end inside the operand of this instruction (R68) -/
  | truncatedOperand (i : Instr)
  deriving DecidableEq, Repr

/-- What decoding the front of a byte string answers: an instruction and the bytes after it, or a rejection by name. -/
inductive Decoded where
  | instr (a : AsmInstr) (rest : List Byte)
  | rejected (e : DecodeError)
  deriving DecidableEq, Repr

/-- The operand of instruction `i` read from the bytes after its opcode (R61 to R63). -/
def decodeOperand (i : Instr) (bytes : List Byte) : Decoded :=
  match i.format, bytes with
  | .op, rest => .instr ⟨i, .absent⟩ rest
  | .opB, b :: rest => .instr ⟨i, .offset b.toInt⟩ rest
  | .opW, b0 :: b1 :: b2 :: b3 :: rest => .instr ⟨i, .word (wordOfBytes b0 b1 b2 b3).toNat⟩ rest
  | _, _ => .rejected (.truncatedOperand i)

/-- The instruction at the front of a byte string (R60, R65). -/
def decode (m : OpcodeMap) (bytes : List Byte) : Decoded :=
  match bytes with
  | [] => .rejected .noBytes
  | b :: rest =>
    match decodeOpcode m b with
    | none => .rejected (.unknownOpcode b)
    | some i => decodeOperand i rest

/-- The operand bytes (R61): LEA's byte in two's complement, a word operand most significant byte first. -/
def encodeOperand : Operand → List Byte
  | .absent => []
  | .offset off => [BitVec.ofInt 8 off]
  | .word imm =>
    [byteOfWord (BitVec.ofNat 32 imm) 0, byteOfWord (BitVec.ofNat 32 imm) 1,
      byteOfWord (BitVec.ofNat 32 imm) 2, byteOfWord (BitVec.ofNat 32 imm) 3]

/-- The bytes of an instruction, lowest text offset first (R61, R70). -/
def encode (m : OpcodeMap) (a : AsmInstr) : List Byte :=
  m.byteOf a.op :: encodeOperand a.operand

/-- One item of a listing (R70): a label, an instruction with a numeric operand, an `OP_W` instruction whose operand is a
label, or `.byte v`. -/
inductive AsmItem where
  | label (name : List Char)
  | instr (a : AsmInstr)
  | toLabel (op : Instr) (name : List Char)
  | byte (v : Byte)
  deriving DecidableEq, Repr

/-- The bytes an item takes in the stream (R60). -/
def AsmItem.length : AsmItem → Nat
  | .label _ => 0
  | .instr a => a.op.format.length
  | .toLabel op _ => op.format.length
  | .byte _ => 1

/-- The text offset a label stands for (R70): the offset of the item after its first definition, counted from `at_`. -/
def labelOffset (name : List Char) : List AsmItem → Nat → Option Nat
  | [], _ => none
  | .label n :: rest, at_ => if n = name then some at_ else labelOffset name rest at_
  | item :: rest, at_ => labelOffset name rest (at_ + item.length)

/-- The bytes of one item of `listing`, or none where its operand is ill formed or its label is not defined. -/
def assembleItem (m : OpcodeMap) (listing : List AsmItem) : AsmItem → Option (List Byte)
  | .label _ => some []
  | .instr a => if a.wellFormed then some (encode m a) else none
  | .toLabel op name =>
    match labelOffset name listing 0 with
    | none => none
    | some off => if (AsmInstr.mk op (.word off)).wellFormed then some (encode m ⟨op, .word off⟩) else none
  | .byte v => some [v]

/-- The instruction stream of the items `items` of `listing`. -/
def assembleItems (m : OpcodeMap) (listing : List AsmItem) : List AsmItem → Option (List Byte)
  | [] => some []
  | item :: rest =>
    match assembleItem m listing item, assembleItems m listing rest with
    | some bytes, some more => some (bytes ++ more)
    | _, _ => none

/-- The Loader's input (R72) that a listing stands for (R70). -/
def assemble (m : OpcodeMap) (listing : List AsmItem) : Option (List Byte) :=
  assembleItems m listing listing

/-- The bytes of an instruction numbered as opcode_table.json numbers them (byte `k` is bits `8k+7..8k`), padded with zeros
to the longest instruction, five bytes. -/
def tableBytes (nbits w : Nat) : List Byte :=
  [0, 1, 2, 3, 4].map fun k => BitVec.ofNat 8 (w % 2 ^ nbits / 2 ^ (8 * k))

/-- The instruction the decoder reads from an opcode-table word, under the default map. -/
def decodeTableWord (nbits w : Nat) : Option Instr :=
  match decode .reference (tableBytes nbits w) with
  | .instr a _ => some a.op
  | .rejected _ => none

end Sys2Proof
end

