-- ==== Sys2Proof/Machine/Reference.lean ====
section
/-! DEFINITION. The reference configuration (spec 00_scope.md rules R3, R5, R6) and the reset values of the registers
(10_state.md rules R24, R25). -/

namespace Sys2Proof.Machine

/-- The reference configuration: three regions of 256 KiB, `PUSH_STRIDE = 4`, the default `OPCODE_MAP`. -/
def referenceConfig : Config where
  stackSize := 0x40000
  dataSize := 0x40000
  textSize := 0x40000
  pushStride := .four
  opcodeMap := .reference

/-- `RESET_SP = STACK_BASE + STACK_SIZE`, the reset value of `sp` and `bp` (R24). -/
def resetSp (c : Config) : Word := BitVec.ofNat 32 (c.stackBase + c.stackSize)

/-- The reset value of `pc` (R25). -/
def resetPc : Word := 0

/-- The reset value of `ax` (R25). -/
def resetAx : Word := 0

end Sys2Proof.Machine
end

