-- ==== Sys2Proof/Machine/State.lean ====
section
/-! DEFINITION. The whole state of the block (spec 10_state.md): four registers, three byte regions, the lifecycle state, the
termination record and the `Diag` events, beside the configuration constants the block was built with. -/

namespace Sys2Proof.Machine

/-- The lifecycle `state` (R19). -/
inductive Lifecycle where
  | empty
  | loaded
  | running
  | halted
  deriving DecidableEq, Repr

/-- The six fault kinds (60_exceptions.md R190). -/
inductive FaultKind where
  | invalidAddress
  | unknownOpcode
  | reservedOpcode
  | divideByZero
  | shiftCount
  | oversizedProgram
  deriving DecidableEq, Repr

/-- The field `space` of an `InvalidAddress` record (R199). -/
inductive AddrSpace where
  | global
  | textLocal
  deriving DecidableEq, Repr

/-- The field `width` of an `InvalidAddress` record, 1 or 4 bytes (R41, R199). -/
inductive Width where
  | byte
  | word
  deriving DecidableEq, Repr

/-- The field `access` of an `InvalidAddress` record (R199). -/
inductive AccessKind where
  | read
  | write
  deriving DecidableEq, Repr

/-- A fault with the fields recorded for its kind (R198, R199). -/
inductive FaultDetail where
  | invalidAddress (space : AddrSpace) (addr : Word) (width : Width) (access : AccessKind)
  | unknownOpcode (opcode : Byte)
  | reservedOpcode (opcode : Byte)
  | divideByZero
  | shiftCount (count : Word)
  | oversizedProgram (length : Nat)
  deriving DecidableEq, Repr

/-- The kind of a fault. -/
def FaultDetail.kind : FaultDetail → FaultKind
  | .invalidAddress _ _ _ _ => .invalidAddress
  | .unknownOpcode _ => .unknownOpcode
  | .reservedOpcode _ => .reservedOpcode
  | .divideByZero => .divideByZero
  | .shiftCount _ => .shiftCount
  | .oversizedProgram _ => .oversizedProgram

/-- The record `fault_info` (R199): `insn_pc` (absent for `OversizedProgram`) and the fields of the kind. -/
structure FaultInfo where
  insnPc : Option Word
  detail : FaultDetail
  deriving DecidableEq, Repr

/-- The termination `reason` (R20). -/
inductive Reason where
  | none
  | exit
  | fault (kind : FaultKind)
  deriving DecidableEq, Repr

/-- The three byte arrays (R18). Each is a list of (offset in the region, byte) in canonical form. -/
structure Memory where
  stack : List Host.Cell
  data : List Host.Cell
  text : List Host.Cell
  deriving DecidableEq, Repr

/-- What an offset that no cell lists reads as: 0x00, the reset contents of every byte (R23). -/
def unlistedByte : Byte := 0x00

/-- The canonical form of one region: offsets strictly rising, no cell holding the unlisted byte. -/
def canonical (cells : List Host.Cell) : Bool :=
  decide (cells.Pairwise fun x y => x.1 < y.1) && cells.all fun x => x.2 != unlistedByte

/-- All three regions are in canonical form, so equal memories are equal data. -/
def Memory.wf (m : Memory) : Bool :=
  canonical m.stack && canonical m.data && canonical m.text

/-- The state of the block. -/
structure State where
  /-- MODEL's own: the configuration constants (R228), which nothing changes (log entry 1). -/
  cfg : Config
  /-- the program counter, a text-local offset (R11) -/
  pc : Word
  /-- the base pointer, a global address (R13) -/
  bp : Word
  /-- the stack pointer, a global address (R12) -/
  sp : Word
  /-- the accumulator (R14) -/
  ax : Word
  /-- the stack, data and text regions (R18) -/
  mem : Memory
  /-- the lifecycle state (R19) -/
  lifecycle : Lifecycle
  /-- the termination reason (R20) -/
  reason : Reason
  /-- the fault record, empty until a fault halts the block (R199) -/
  faultInfo : Option FaultInfo
  /-- the `Diag` events emitted since reset, oldest first (R21, R207) -/
  diags : List FaultKind
  deriving DecidableEq, Repr

/-- What stops the model itself. It has no constructor: every fault the spec names halts the BLOCK, and that halt is a next
state (60_exceptions.md R200), so no step of the model stops with a fault. -/
inductive Fault where
  deriving DecidableEq, Repr

/-- Why the model gives an instruction no meaning. -/
inductive Refusal where
  /-- raised by an arm of `exec` whose instruction has no meaning yet (none is left); safe, since a run that needs it stops -/
  | notModelled (mnemonic : String)
  deriving DecidableEq, Repr

/-- The block right after reset, for any configuration (R23 to R25, R220). -/
def State.resetOf (c : Config) : State where
  cfg := c
  pc := resetPc
  bp := resetSp c
  sp := resetSp c
  ax := resetAx
  mem := ⟨[], [], []⟩
  lifecycle := .empty
  reason := .none
  faultInfo := none
  diags := []

/-- The block of the reference configuration right after reset. -/
def State.reset : State := State.resetOf referenceConfig

/-- `pc <- v`. -/
def State.setPc (s : State) (v : Word) : State := { s with pc := v }

/-- `bp <- v`. -/
def State.setBp (s : State) (v : Word) : State := { s with bp := v }

/-- `sp <- v`. -/
def State.setSp (s : State) (v : Word) : State := { s with sp := v }

/-- `ax <- v`. -/
def State.setAx (s : State) (v : Word) : State := { s with ax := v }

/-- The memory becomes `m`. -/
def State.setMem (s : State) (m : Memory) : State := { s with mem := m }

/-- The lifecycle state becomes `l`. -/
def State.setLifecycle (s : State) (l : Lifecycle) : State := { s with lifecycle := l }

end Sys2Proof.Machine
end

