-- ==== Sys2Proof/Machine/Ops.lean ====
section
/-! DEFINITION. The named operations every instruction is written over (spec 20_memory.md, 40_dispatch.md, 60_exceptions.md):
the region translator, the four accessors, the text-local read, the opcode fetch, the outcome of a handler, and the two
halts: on a fault (R200) and on EXIT (R209). There is no return from either (R203). -/

namespace Sys2Proof.Machine

/-- The byte at an offset of a region. -/
def cellAt : List Host.Cell → Nat → Byte
  | [], _ => unlistedByte
  | (k, v) :: rest, o => if k = o then v else cellAt rest o

/-- Stores a byte at an offset of a region, keeping the canonical form: storing the unlisted byte removes the cell. -/
def setCell : List Host.Cell → Nat → Byte → List Host.Cell
  | [], o, b => if b = unlistedByte then [] else [(o, b)]
  | (k, v) :: rest, o, b =>
    if o < k then (if b = unlistedByte then (k, v) :: rest else (o, b) :: (k, v) :: rest)
    else if o = k then (if b = unlistedByte then rest else (o, b) :: rest)
    else (k, v) :: setCell rest o b

/-- Stores consecutive bytes from an offset of a region on. -/
def setCells (cells : List Host.Cell) (o : Nat) : List Byte → List Host.Cell
  | [] => cells
  | b :: rest => setCells (setCell cells o b) (o + 1) rest

/-- The word at an offset of a region, big-endian (R35, R39). -/
def cellWordAt (cells : List Host.Cell) (o : Nat) : Word :=
  wordOfBytes (cellAt cells o) (cellAt cells (o + 1)) (cellAt cells (o + 2)) (cellAt cells (o + 3))

/-- Stores a word at an offset of a region, big-endian (R36, R39). -/
def setCellWord (cells : List Host.Cell) (o : Nat) (w : Word) : List Host.Cell :=
  setCells cells o [byteOfWord w 0, byteOfWord w 1, byteOfWord w 2, byteOfWord w 3]

/-- The buffer of a region (R18). -/
def Memory.cells (m : Memory) : Region → List Host.Cell
  | .stack => m.stack
  | .data => m.data
  | .text => m.text

/-- The buffer of one region replaced, the other two kept. -/
def Memory.setRegion (m : Memory) (r : Region) (cells : List Host.Cell) : Memory :=
  match r with
  | .stack => { m with stack := cells }
  | .data => { m with data := cells }
  | .text => { m with text := cells }

/-- `Translate` (R31): the region that owns a global address and the offset in it, or none for `Invalid`. -/
def translateAddr (c : Config) (a : Word) : Option (Region × Nat) :=
  if a.toNat < c.stackSize then some (.stack, a.toNat)
  else if a.toNat < c.stackSize + c.dataSize then some (.data, a.toNat - c.stackSize)
  else if a.toNat < c.endAddr then some (.text, a.toNat - c.stackSize - c.dataSize)
  else none

/-- `Translate` for an access of a whole word: the four bytes must lie in the region of the first (R37, R50). -/
def translateWord (c : Config) (a : Word) : Option (Region × Nat) :=
  match translateAddr c a with
  | some (r, o) => if o + 3 < c.sizeOf r then some (r, o) else none
  | none => none

/-- A value, or the fault raised in its place (00_scope.md section 5, `raise`). -/
inductive Checked (α : Type) where
  | value (v : α)
  | raise (d : FaultDetail)
  deriving DecidableEq, Repr

/-- `read_byte` (R33). -/
def readByte (s : State) (a : Word) : Checked Byte :=
  match translateAddr s.cfg a with
  | some (r, o) => .value (cellAt (s.mem.cells r) o)
  | none => .raise (.invalidAddress .global a .byte .read)

/-- `read_word` (R35). -/
def readWord (s : State) (a : Word) : Checked Word :=
  match translateWord s.cfg a with
  | some (r, o) => .value (cellWordAt (s.mem.cells r) o)
  | none => .raise (.invalidAddress .global a .word .read)

/-- `write_byte` (R34): the value it returns and the state after it. The text region is writable like the others (R44). -/
def writeByte (s : State) (a : Word) (b : Byte) : Checked (Byte × State) :=
  match translateAddr s.cfg a with
  | some (r, o) => .value (b, s.setMem (s.mem.setRegion r (setCell (s.mem.cells r) o b)))
  | none => .raise (.invalidAddress .global a .byte .write)

/-- `write_word` (R36): the value it returns and the state after it. -/
def writeWord (s : State) (a : Word) (w : Word) : Checked (Word × State) :=
  match translateWord s.cfg a with
  | some (r, o) => .value (w, s.setMem (s.mem.setRegion r (setCellWord (s.mem.cells r) o w)))
  | none => .raise (.invalidAddress .global a .word .write)

/-- `TextRead(off, 1)` (R42). -/
def textReadByte (s : State) (off : Word) : Checked Byte :=
  if off.toNat + 1 ≤ s.cfg.textSize then .value (cellAt s.mem.text off.toNat)
  else .raise (.invalidAddress .textLocal off .byte .read)

/-- `TextRead(off, 4)` (R42). -/
def textReadWord (s : State) (off : Word) : Checked Word :=
  if off.toNat + 4 ≤ s.cfg.textSize then .value (cellWordAt s.mem.text off.toNat)
  else .raise (.invalidAddress .textLocal off .word .read)

/-- The read half of the fetch: the opcode byte at `pc` (R81). -/
def fetchOpcode (s : State) : Checked Byte := textReadByte s s.pc

/-- The advance half of the fetch: `pc <- (pc + 1) mod 2^32` (R81). -/
def advancePc (s : State) : State := s.setPc (s.pc + 1)

/-- What a handler answers (R85): `Continue`, `Fault` or `Exit`, each with the registers and memory as the statements performed
so far have left them (R201). -/
inductive HandlerResult where
  | proceed (s : State)
  | fault (d : FaultDetail) (s : State)
  | exit (s : State)
  deriving DecidableEq, Repr

/-- A statement that may raise, performed in state `s`: its value goes to the rest of the handler; a fault ends the handler
there with `s` as it stands (R86, R201). -/
def Checked.andThen {α : Type} (r : Checked α) (s : State) (rest : α → HandlerResult) : HandlerResult :=
  match r with
  | .value v => rest v
  | .raise d => .fault d s

/-- Halt entry on a fault (R200): `Halted`, the reason, the fault record, one `Diag` event. No register and no byte of memory
is touched, and control goes nowhere. -/
def takeFault (insnPc : Option Word) (d : FaultDetail) (s : State) : State :=
  { s with
    lifecycle := .halted
    reason := .fault d.kind
    faultInfo := some ⟨insnPc, d⟩
    diags := s.diags ++ [d.kind] }

/-- The clean halt (R209): `Halted` and the reason `Exit`; no record, no `Diag`. -/
def takeExit (s : State) : State :=
  { s with lifecycle := .halted, reason := .exit }

/-- The dispatcher's answer to a handler (R83), started in the state `start` with `pc` just past the opcode byte, so that
`insn_pc` (R199) is `pc - 1` there. -/
def concludeHandler (start : State) (r : HandlerResult) : Host.Outcome State Fault Refusal :=
  match r with
  | .proceed s => .next s
  | .fault d s => .next (takeFault (some (start.pc - 1)) d s)
  | .exit s => .next (takeExit s)

/-- The cause code of a termination reason (R198). -/
def Reason.code : Reason → Nat
  | .none => 0
  | .exit => 1
  | .fault .invalidAddress => 2
  | .fault .unknownOpcode => 3
  | .fault .reservedOpcode => 4
  | .fault .divideByZero => 5
  | .fault .shiftCount => 6
  | .fault .oversizedProgram => 7

end Sys2Proof.Machine
end

