-- ==== Sys2Proof/Machine/Operands.lean ====
section
/-! DEFINITION. Every operand form of the instruction set (spec 40_dispatch.md R87, 41_load_store.md R106): the word and the
byte operand at `pc`, the store address, the pre-decremented push, the post-incremented pop, and LEA's address. -/

namespace Sys2Proof.Machine

/-- `TextRead(pc, 4)`: the word operand (30_encoding.md R62). -/
def operandWord (s : State) : Checked Word := textReadWord s s.pc

/-- `TextRead(pc, 1)`: LEA's byte operand (R63). -/
def operandByte (s : State) : Checked Byte := textReadByte s s.pc

/-- `pc <- (pc + 4) mod 2^32`: the word operand is passed over (R87). -/
def skipWord (s : State) : State := s.setPc (s.pc + 4)

/-- `pc <- (pc + 1) mod 2^32`: the byte operand is passed over (R87). -/
def skipByte (s : State) : State := s.setPc (s.pc + 1)

/-- The address SC and SI store to: `sp` itself (R103, R104). -/
def storeAddress (s : State) : Word := s.sp

/-- The address PUSH, CALL and ENT store to: `sp - PUSH_STRIDE mod 2^32` (R105). -/
def pushAddress (s : State) : Word := s.sp - s.cfg.pushStride.bytes

/-- `sp <- (sp - PUSH_STRIDE) mod 2^32; MemWrite(sp, 4, w)`, then the rest of the handler. -/
def pushWord (s : State) (w : Word) (rest : State → HandlerResult) : HandlerResult :=
  let lowered := s.setSp (pushAddress s)
  (writeWord lowered lowered.sp w).andThen lowered fun r => rest r.2

/-- `w <- MemRead(sp, 4); sp <- (sp + 4) mod 2^32`, then the rest of the handler (R126, R140). The step is 4 whatever
`PUSH_STRIDE` is. -/
def popWord (s : State) (rest : Word → State → HandlerResult) : HandlerResult :=
  (readWord s s.sp).andThen s fun w => rest w (s.setSp (s.sp + 4))

/-- `(bp + sext32_8(off) * 4) mod 2^32`: the address LEA loads from (R127). -/
def frameAddress (s : State) (off : Byte) : Word := s.bp + sext32 off * 4

end Sys2Proof.Machine
end

