-- ==== Sys2Proof/Machine/Flags.lean ====
section
/-! DEFINITION. The block has no flags (spec 10_state.md R17). What stands in their place: a comparison's outcome is the word 0
or 1 in `ax` (43_binary_ops.md R157 h), and the conditional jumps test all 32 bits of `ax` against zero (R121, R122). -/

namespace Sys2Proof.Machine

/-- The word a comparison delivers: 1 when the relation holds, 0 when it does not. -/
def truthWord (holds : Bool) : Word := if holds then 1 else 0

/-- The condition of JZ and JNZ: `ax == 0`. -/
def axIsZero (s : State) : Bool := s.ax == 0

end Sys2Proof.Machine
end

