-- ==== Sys2Proof/Machine/Binary.lean ====
section
/-! DEFINITION. The sixteen binary operators (spec 43_binary_ops.md): one skeleton (R140), one operator function each. Every
value is an unsigned 32-bit integer (R157). -/

namespace Sys2Proof.Machine

/-- The skeleton (R140): `left <- MemRead(sp, 4); sp <- (sp + 4) mod 2^32; ax <- f(left, ax)`. A fault of `f` comes after the
pop: `sp` is raised, `ax` is not written. -/
def binaryOp (f : Word → Word → Checked Word) (s : State) : HandlerResult :=
  popWord s fun left popped =>
    (f left popped.ax).andThen popped fun v => .proceed (popped.setAx v)

/-- OR (R141). -/
def opOr (left right : Word) : Checked Word := .value (left ||| right)

/-- XOR (R142). -/
def opXor (left right : Word) : Checked Word := .value (left ^^^ right)

/-- AND (R143). -/
def opAnd (left right : Word) : Checked Word := .value (left &&& right)

/-- EQ (R144). -/
def opEq (left right : Word) : Checked Word := .value (truthWord (left == right))

/-- NE (R145). -/
def opNe (left right : Word) : Checked Word := .value (truthWord (left != right))

/-- LT, unsigned (R146). -/
def opLt (left right : Word) : Checked Word := .value (truthWord (left.toNat < right.toNat))

/-- GT, unsigned (R147). -/
def opGt (left right : Word) : Checked Word := .value (truthWord (right.toNat < left.toNat))

/-- LE, unsigned (R148). -/
def opLe (left right : Word) : Checked Word := .value (truthWord (left.toNat ≤ right.toNat))

/-- GE, unsigned (R149). -/
def opGe (left right : Word) : Checked Word := .value (truthWord (right.toNat ≤ left.toNat))

/-- A shift by the accumulator: a count of 32 or more raises `ShiftCount(ax)` (R150, R151). -/
def checkedShift (shifted : Word) (count : Word) : Checked Word :=
  if 32 ≤ count.toNat then .raise (.shiftCount count) else .value shifted

/-- SHL (R150): `(left * 2^ax) mod 2^32`. -/
def opShl (left right : Word) : Checked Word := checkedShift (left <<< right.toNat) right

/-- SHR, logical (R151): `left div 2^ax`. -/
def opShr (left right : Word) : Checked Word := checkedShift (left >>> right.toNat) right

/-- ADD (R152). -/
def opAdd (left right : Word) : Checked Word := .value (left + right)

/-- SUB (R153): the popped word minus the accumulator. -/
def opSub (left right : Word) : Checked Word := .value (left - right)

/-- MUL (R154): the low 32 bits of the product. -/
def opMul (left right : Word) : Checked Word := .value (left * right)

/-- A division by the accumulator: a divisor of 0 raises `DivideByZero` (R155, R156). -/
def checkedDivision (result : Word) (divisor : Word) : Checked Word :=
  if divisor = 0 then .raise .divideByZero else .value result

/-- DIV, unsigned, truncating (R155). -/
def opDiv (left right : Word) : Checked Word := checkedDivision (left / right) right

/-- MOD, unsigned (R156). -/
def opMod (left right : Word) : Checked Word := checkedDivision (left % right) right

/-- OR (R141). -/
def execOr (s : State) : Host.Outcome State Fault Refusal :=
  concludeHandler s (binaryOp opOr s)

/-- XOR (R142). -/
def execXor (s : State) : Host.Outcome State Fault Refusal :=
  concludeHandler s (binaryOp opXor s)

/-- AND (R143). -/
def execAnd (s : State) : Host.Outcome State Fault Refusal :=
  concludeHandler s (binaryOp opAnd s)

/-- EQ (R144). -/
def execEq (s : State) : Host.Outcome State Fault Refusal :=
  concludeHandler s (binaryOp opEq s)

/-- NE (R145). -/
def execNe (s : State) : Host.Outcome State Fault Refusal :=
  concludeHandler s (binaryOp opNe s)

/-- LT (R146). -/
def execLt (s : State) : Host.Outcome State Fault Refusal :=
  concludeHandler s (binaryOp opLt s)

/-- GT (R147). -/
def execGt (s : State) : Host.Outcome State Fault Refusal :=
  concludeHandler s (binaryOp opGt s)

/-- LE (R148). -/
def execLe (s : State) : Host.Outcome State Fault Refusal :=
  concludeHandler s (binaryOp opLe s)

/-- GE (R149). -/
def execGe (s : State) : Host.Outcome State Fault Refusal :=
  concludeHandler s (binaryOp opGe s)

/-- SHL (R150). -/
def execShl (s : State) : Host.Outcome State Fault Refusal :=
  concludeHandler s (binaryOp opShl s)

/-- SHR (R151). -/
def execShr (s : State) : Host.Outcome State Fault Refusal :=
  concludeHandler s (binaryOp opShr s)

/-- ADD (R152). -/
def execAdd (s : State) : Host.Outcome State Fault Refusal :=
  concludeHandler s (binaryOp opAdd s)

/-- SUB (R153). -/
def execSub (s : State) : Host.Outcome State Fault Refusal :=
  concludeHandler s (binaryOp opSub s)

/-- MUL (R154). -/
def execMul (s : State) : Host.Outcome State Fault Refusal :=
  concludeHandler s (binaryOp opMul s)

/-- DIV (R155). -/
def execDiv (s : State) : Host.Outcome State Fault Refusal :=
  concludeHandler s (binaryOp opDiv s)

/-- MOD (R156). -/
def execMod (s : State) : Host.Outcome State Fault Refusal :=
  concludeHandler s (binaryOp opMod s)

end Sys2Proof.Machine
end

