-- ==== Sys2Proof/Machine/Control.lean ====
section
/-! DEFINITION. JMP, JZ, JNZ, CALL, ENT, ADJ, LEV, LEA (spec 42_control_frame.md). Every meaning starts with `pc` past the
opcode byte; targets are absolute text-local offsets and the transfer never faults on the target's value (R129). -/

namespace Sys2Proof.Machine

/-- "perform JMP" (R129): `pc <- TextRead(pc, 4)`. -/
def performJmp (s : State) : HandlerResult :=
  (operandWord s).andThen s fun target => .proceed (s.setPc target)

/-- JMP (R120). -/
def execJmp (s : State) : Host.Outcome State Fault Refusal :=
  concludeHandler s (performJmp s)

/-- JZ (R121): `if ax == 0 then pc <- TextRead(pc, 4) else pc <- (pc + 4) mod 2^32`; not taken, the operand is not read. -/
def execJz (s : State) : Host.Outcome State Fault Refusal :=
  concludeHandler s (if axIsZero s then performJmp s else .proceed (skipWord s))

/-- JNZ (R122): `if ax != 0 then pc <- (pc + 4) mod 2^32 else pc <- TextRead(pc, 4)`: it jumps on ZERO, like JZ
(90_conflicts.md C7). -/
def execJnz (s : State) : Host.Outcome State Fault Refusal :=
  concludeHandler s (if !axIsZero s then .proceed (skipWord s) else performJmp s)

/-- CALL (R123): `sp <- (sp - PUSH_STRIDE) mod 2^32; MemWrite(sp, 4, pc); pc <- TextRead(pc, 4)`. The link is the offset of
CALL's own operand, and the operand is read after the link is written. -/
def execCall (s : State) : Host.Outcome State Fault Refusal :=
  concludeHandler s (pushWord s s.pc performJmp)

/-- ENT (R124): `sp <- (sp - PUSH_STRIDE) mod 2^32; MemWrite(sp, 4, bp); bp <- sp; sp <- (sp - TextRead(pc, 4)) mod 2^32;
pc <- (pc + 4) mod 2^32`. The operand counts bytes (90_conflicts.md C4). -/
def execEnt (s : State) : Host.Outcome State Fault Refusal :=
  concludeHandler s <|
    pushWord s s.bp fun pushed =>
      let framed := pushed.setBp pushed.sp
      (operandWord framed).andThen framed fun n => .proceed (skipWord (framed.setSp (framed.sp - n)))

/-- ADJ (R125): `sp <- (sp + TextRead(pc, 4)) mod 2^32; pc <- (pc + 4) mod 2^32`. -/
def execAdj (s : State) : Host.Outcome State Fault Refusal :=
  concludeHandler s <|
    (operandWord s).andThen s fun n => .proceed (skipWord (s.setSp (s.sp + n)))

/-- LEV (R126): `sp <- bp; bp <- MemRead(sp, 4); sp <- (sp + 4) mod 2^32; pc <- MemRead(sp, 4); sp <- (sp + 4) mod 2^32`. -/
def execLev (s : State) : Host.Outcome State Fault Refusal :=
  concludeHandler s <|
    let unwound := s.setSp s.bp
    (readWord unwound unwound.sp).andThen unwound fun savedBp =>
      let restored := (unwound.setBp savedBp).setSp (unwound.sp + 4)
      (readWord restored restored.sp).andThen restored fun link =>
        .proceed ((restored.setPc link).setSp (restored.sp + 4))

/-- LEA (R127): `off <- TextRead(pc, 1); pc <- (pc + 1) mod 2^32; ax <- MemRead((bp + sext32_8(off) * 4) mod 2^32, 4)`. It loads
the word stored there, not the address. -/
def execLea (s : State) : Host.Outcome State Fault Refusal :=
  concludeHandler s <|
    (operandByte s).andThen s fun off =>
      let passed := skipByte s
      (readWord passed (frameAddress passed off)).andThen passed fun w => .proceed (passed.setAx w)

end Sys2Proof.Machine
end

