-- ==== Sys2Proof/Machine/HostCall.lean ====
section
/-! DEFINITION. The seven reserved host-call opcodes and EXIT (spec 44_hostcall_reserved.md). None reads an operand. -/

namespace Sys2Proof.Machine

/-- `raise ReservedOpcode(op)` (R179): nothing but the fault, with the opcode byte the instruction has. -/
def raiseReserved (i : Instr) (s : State) : HandlerResult :=
  .fault (.reservedOpcode (s.cfg.opcodeMap.byteOf i)) s

/-- OPEN (R170). -/
def execOpen (s : State) : Host.Outcome State Fault Refusal :=
  concludeHandler s (raiseReserved .open_ s)

/-- READ (R171). -/
def execRead (s : State) : Host.Outcome State Fault Refusal :=
  concludeHandler s (raiseReserved .read s)

/-- CLOS (R172). -/
def execClos (s : State) : Host.Outcome State Fault Refusal :=
  concludeHandler s (raiseReserved .clos s)

/-- PRTF (R173). -/
def execPrtf (s : State) : Host.Outcome State Fault Refusal :=
  concludeHandler s (raiseReserved .prtf s)

/-- MALC (R174). -/
def execMalc (s : State) : Host.Outcome State Fault Refusal :=
  concludeHandler s (raiseReserved .malc s)

/-- MSET (R175). -/
def execMset (s : State) : Host.Outcome State Fault Refusal :=
  concludeHandler s (raiseReserved .mset s)

/-- MCMP (R176). -/
def execMcmp (s : State) : Host.Outcome State Fault Refusal :=
  concludeHandler s (raiseReserved .mcmp s)

/-- EXIT (R177): `halt Exit`; registers and memory stay as they were after the fetch. -/
def execExit (s : State) : Host.Outcome State Fault Refusal :=
  concludeHandler s (.exit s)

end Sys2Proof.Machine
end

