-- ==== Sys2Proof/Machine/LoadStore.lean ====
section
/-! DEFINITION. IMM, LC, LI, SC, SI, PUSH (spec 41_load_store.md). Every meaning starts with `pc` past the opcode byte. -/

namespace Sys2Proof.Machine

/-- IMM (R100): `ax <- TextRead(pc, 4); pc <- (pc + 4) mod 2^32`. -/
def execImm (s : State) : Host.Outcome State Fault Refusal :=
  concludeHandler s <|
    (operandWord s).andThen s fun imm => .proceed (skipWord (s.setAx imm))

/-- LC (R101): `ax <- zext32(MemRead(ax, 1))`. -/
def execLc (s : State) : Host.Outcome State Fault Refusal :=
  concludeHandler s <|
    (readByte s s.ax).andThen s fun b => .proceed (s.setAx (zext32 b))

/-- LI (R102): `ax <- MemRead(ax, 4)`. -/
def execLi (s : State) : Host.Outcome State Fault Refusal :=
  concludeHandler s <|
    (readWord s s.ax).andThen s fun w => .proceed (s.setAx w)

/-- SC (R103): `MemWrite(sp, 1, ax[7:0]); ax <- zext32(ax[7:0])`, the second being the value `write_byte` returns. -/
def execSc (s : State) : Host.Outcome State Fault Refusal :=
  concludeHandler s <|
    (writeByte s (storeAddress s) (s.ax.setWidth 8)).andThen s fun r => .proceed (r.2.setAx (zext32 r.1))

/-- SI (R104): `MemWrite(sp, 4, ax); ax <- ax`, the second being the value `write_word` returns. -/
def execSi (s : State) : Host.Outcome State Fault Refusal :=
  concludeHandler s <|
    (writeWord s (storeAddress s) s.ax).andThen s fun r => .proceed (r.2.setAx r.1)

/-- PUSH (R105): `sp <- (sp - PUSH_STRIDE) mod 2^32; MemWrite(sp, 4, ax)`. -/
def execPush (s : State) : Host.Outcome State Fault Refusal :=
  concludeHandler s <| pushWord s s.ax .proceed

end Sys2Proof.Machine
end

