-- ==== Sys2Proof/Machine/Dispatch.lean ====
section
/-! DEFINITION. The binding of the 38 instructions to their handlers (spec 40_dispatch.md R82, R88). -/

namespace Sys2Proof.Machine

/-- Runs the handler of an instruction on a state whose `pc` is already past the opcode byte (R82). -/
def exec (i : Instr) (s : State) : Host.Outcome State Fault Refusal :=
  match i with
  | .imm => Sys2Proof.Machine.execImm s
  | .lc => Sys2Proof.Machine.execLc s
  | .li => Sys2Proof.Machine.execLi s
  | .sc => Sys2Proof.Machine.execSc s
  | .si => Sys2Proof.Machine.execSi s
  | .push => Sys2Proof.Machine.execPush s
  | .jmp => Sys2Proof.Machine.execJmp s
  | .jz => Sys2Proof.Machine.execJz s
  | .jnz => Sys2Proof.Machine.execJnz s
  | .call => Sys2Proof.Machine.execCall s
  | .ent => Sys2Proof.Machine.execEnt s
  | .adj => Sys2Proof.Machine.execAdj s
  | .lev => Sys2Proof.Machine.execLev s
  | .lea => Sys2Proof.Machine.execLea s
  | .or => Sys2Proof.Machine.execOr s
  | .xor => Sys2Proof.Machine.execXor s
  | .and => Sys2Proof.Machine.execAnd s
  | .eq => Sys2Proof.Machine.execEq s
  | .ne => Sys2Proof.Machine.execNe s
  | .lt => Sys2Proof.Machine.execLt s
  | .gt => Sys2Proof.Machine.execGt s
  | .le => Sys2Proof.Machine.execLe s
  | .ge => Sys2Proof.Machine.execGe s
  | .shl => Sys2Proof.Machine.execShl s
  | .shr => Sys2Proof.Machine.execShr s
  | .add => Sys2Proof.Machine.execAdd s
  | .sub => Sys2Proof.Machine.execSub s
  | .mul => Sys2Proof.Machine.execMul s
  | .div => Sys2Proof.Machine.execDiv s
  | .mod => Sys2Proof.Machine.execMod s
  | .open_ => Sys2Proof.Machine.execOpen s
  | .read => Sys2Proof.Machine.execRead s
  | .clos => Sys2Proof.Machine.execClos s
  | .prtf => Sys2Proof.Machine.execPrtf s
  | .malc => Sys2Proof.Machine.execMalc s
  | .mset => Sys2Proof.Machine.execMset s
  | .mcmp => Sys2Proof.Machine.execMcmp s
  | .exit => Sys2Proof.Machine.execExit s

end Sys2Proof.Machine
end

