-- ==== Sys2Proof/Machine/Step.lean ====
section
/-! DEFINITION. One step of the dispatcher (spec 40_dispatch.md R80 to R83, section 3), and the placing of one instruction
where the next step fetches. -/

namespace Sys2Proof.Machine

/-- One iteration of the fetch-decode-execute loop while the block is `Running`; in the other three lifecycle states the
dispatcher does nothing (R80, R200, R209) and the state stays as it is (log entry 2). -/
def step (s : State) : Host.Outcome State Fault Refusal :=
  match s.lifecycle with
  | .running =>
    match fetchOpcode s with
    | .raise d => .next (takeFault (some s.pc) d s)
    | .value op =>
      match decodeOpcode s.cfg.opcodeMap op with
      | none => .next (takeFault (some s.pc) (.unknownOpcode op) (advancePc s))
      | some i => exec i (advancePc s)
  | .empty => .next s
  | .loaded => .next s
  | .halted => .next s

/-- `s` with an instruction's bytes (numbered as the opcode table numbers them) stored in the text region from `pc` on (as
many as the region has room for), as a load would put them, and the block `Running`, as the run signal would leave it (log entry 3). -/
def State.withFetchWord (s : State) (nbits w : Nat) : State :=
  let bytes := (tableBytes nbits w).take (s.cfg.textSize - s.pc.toNat)
  (s.setMem { s.mem with text := setCells s.mem.text s.pc.toNat bytes }).setLifecycle .running

end Sys2Proof.Machine
end

