-- ==== Sys2Proof/Machine/Transactions.lean ====
section
/-! DEFINITION. The host interface (spec 70_reset_and_hazards.md R220 to R228): the four transactions Reset, Load, Execute and
Observe, each a function of the state, and a run under fuel (R243). The host is the one other agent (00_scope.md R7); it
has no move while the block is `Running` (R225), so no transaction lands inside a run. -/

namespace Sys2Proof.Machine

/-- The four host commands (R228). -/
inductive Command where
  | reset
  | load (bytes : List Byte)
  | execute
  | observe
  deriving DecidableEq, Repr

/-- The read-out of R227. -/
structure Observation where
  reason : Reason
  faultInfo : Option FaultInfo
  diags : List FaultKind
  pc : Word
  bp : Word
  sp : Word
  ax : Word
  mem : Memory
  deriving DecidableEq, Repr

/-- What a command answers (R228). -/
inductive Answer where
  | ok
  | oversizedProgram
  | protocolError
  /-- Execute was accepted; its answer is the termination reason, if the run ends (`runAnswer`) -/
  | started
  | view (o : Observation)
  deriving DecidableEq, Repr

/-- Reset (R220): total, in any lifecycle state; the configuration is not state and stays. DESIGN CHOICE: it answers `ok`; the spec
says only that it is always accepted (log entry 18). -/
def resetBlock (s : State) : Answer × State := (.ok, State.resetOf s.cfg)

/-- Load (R222 to R224): accepted only in `Empty`. A stream that fits goes to the text region from offset 0 on; a longer one is
the fault `OversizedProgram`, with no byte changed and no `insn_pc`. -/
def loadProgram (bytes : List Byte) (s : State) : Answer × State :=
  match s.lifecycle with
  | .empty =>
    if bytes.length ≤ s.cfg.textSize then
      (.ok, (s.setMem { s.mem with text := setCells s.mem.text 0 bytes }).setLifecycle .loaded)
    else (.oversizedProgram, takeFault none (.oversizedProgram bytes.length) s)
  | .loaded => (.protocolError, s)
  | .running => (.protocolError, s)
  | .halted => (.protocolError, s)

/-- The run signal (R225, R91): accepted only in `Loaded`; it changes the lifecycle state and nothing else. -/
def runSignal (s : State) : Answer × State :=
  match s.lifecycle with
  | .loaded => (.started, s.setLifecycle .running)
  | .empty => (.protocolError, s)
  | .running => (.protocolError, s)
  | .halted => (.protocolError, s)

/-- The values the host reads (R227). -/
def observation (s : State) : Observation :=
  ⟨s.reason, s.faultInfo, s.diags, s.pc, s.bp, s.sp, s.ax, s.mem⟩

/-- Observe (R227): without side effect, in every lifecycle state but `Running`, where the host has no move (log entry 4). -/
def observeBlock (s : State) : Answer × State :=
  match s.lifecycle with
  | .running => (.protocolError, s)
  | .empty => (.view (observation s), s)
  | .loaded => (.view (observation s), s)
  | .halted => (.view (observation s), s)

/-- One host transaction (R228). -/
def transact (c : Command) (s : State) : Answer × State :=
  match c with
  | .reset => resetBlock s
  | .load bytes => loadProgram bytes s
  | .execute => runSignal s
  | .observe => observeBlock s

/-- The answer of the run signal once the run has ended (R225). -/
def runAnswer (s : State) : Option Reason :=
  match s.lifecycle with
  | .halted => some s.reason
  | .empty => none
  | .loaded => none
  | .running => none

/-- At most `fuel` steps of the dispatcher (R243). -/
def runFor : Nat → State → State
  | 0, s => s
  | fuel + 1, s =>
    match step s with
    | .next t => runFor fuel t
    | .fault _ => s
    | .refused _ => s

end Sys2Proof.Machine
end

