-- ==== Sys2Proof/Safety.lean ====
section
/-! DEFINITION. The terms claims are stated in: when an access is valid, what a store changes, where each instruction stores,
what the text region holds, the invariant of the block, and what a well-behaved and a safe run are
(spec 10_state.md R18 to R27, 20_memory.md R37, 60_exceptions.md R199). -/

namespace Sys2Proof.Machine

/-- The byte at a global address exists (R30): the address lies below `END`. -/
def byteFits (c : Config) (a : Word) : Bool := decide (a.toNat < c.endAddr)

/-- The four bytes from a global address on lie in one region (R37, R50), said from the regions' bounds alone. -/
def wordFits (c : Config) (a : Word) : Bool :=
  [Region.stack, .data, .text].any fun r =>
    decide (c.baseOf r ≤ a.toNat) && decide (a.toNat + 4 ≤ c.baseOf r + c.sizeOf r)

/-- Address `b` is none of the `n` bytes from `a` on. -/
def outside (a : Word) (n : Nat) (b : Word) : Prop := b.toNat < a.toNat ∨ a.toNat + n ≤ b.toNat

/-- Putting memory `m` in the place of the memory of `s` stores the byte `v` at `a`, and no other byte differs. -/
def ByteStored (s : State) (m : Memory) (a : Word) (v : Byte) : Prop :=
  readByte { s with mem := m } a = .value v ∧
    ∀ b, outside a 1 b → readByte { s with mem := m } b = readByte s b

/-- Putting memory `m` in the place of the memory of `s` stores the word `w` at `a`, and no byte outside its four differs. -/
def WordStored (s : State) (m : Memory) (a w : Word) : Prop :=
  readWord { s with mem := m } a = .value w ∧
    ∀ b, outside a 4 b → readByte { s with mem := m } b = readByte s b

/-- The address and the number of bytes an instruction stores to when its handler runs in `s`: SC and SI at `sp`, PUSH, CALL
and ENT at the lowered `sp`, the other 33 nowhere (R234). -/
def storeSpan (i : Instr) (s : State) : Option (Word × Nat) :=
  match i with
  | .sc => some (storeAddress s, 1)
  | .si => some (storeAddress s, 4)
  | .push | .call | .ent => some (pushAddress s, 4)
  | .imm | .lc | .li | .jmp | .jz | .jnz | .adj | .lev | .lea => none
  | .or | .xor | .and | .eq | .ne | .lt | .gt | .le | .ge | .shl | .shr | .add | .sub | .mul | .div | .mod => none
  | .open_ | .read | .clos | .prtf | .malc | .mset | .mcmp | .exit => none

/-- The text region holds the bytes from a text-local offset on, all inside the region. -/
def textHolds (s : State) (off : Nat) : List Byte → Bool
  | [] => true
  | b :: rest => decide (off < s.cfg.textSize) && cellAt s.mem.text off == b && textHolds s (off + 1) rest

/-- Every listed cell lies inside its region (R18). -/
def Memory.inBounds (c : Config) (m : Memory) : Bool :=
  m.stack.all (fun x => decide (x.1 < c.stackSize)) && m.data.all (fun x => decide (x.1 < c.dataSize)) &&
    m.text.all (fun x => decide (x.1 < c.textSize))

/-- The termination record agrees with the lifecycle state (R19 to R21, R199, R209): nothing is recorded before the halt;
`Exit` has no record and no `Diag`; a fault has its record, of its own kind, with `insn_pc` unless it is `OversizedProgram`,
and exactly one `Diag`. -/
def State.recordConsistent (s : State) : Bool :=
  match s.lifecycle, s.reason, s.faultInfo, s.diags with
  | .empty, .none, none, [] => true
  | .loaded, .none, none, [] => true
  | .running, .none, none, [] => true
  | .halted, .exit, none, [] => true
  | .halted, .fault k, some info, [k'] =>
    decide (k' = k) && decide (info.detail.kind = k) && (info.insnPc.isNone == decide (k = .oversizedProgram))
  | _, _, _, _ => false

/-- Before the run the block is as reset left it, but for the loaded text (R91, R222, R229). -/
def State.launchConsistent (s : State) : Bool :=
  match s.lifecycle with
  | .empty => decide (s = State.resetOf s.cfg)
  | .loaded => decide (s = ((State.resetOf s.cfg).setMem ⟨[], [], s.mem.text⟩).setLifecycle .loaded)
  | .running => true
  | .halted => true

/-- The invariant of the block. -/
def State.Inv (s : State) : Bool :=
  s.mem.wf && s.mem.inBounds s.cfg && s.recordConsistent && s.launchConsistent

/-- The run has ended by EXIT. -/
def State.exited (s : State) : Bool := decide (s.lifecycle = .halted) && decide (s.reason = .exit)

/-- The run has ended, or the load was refused, by a fault of a kind. -/
def State.faulted (k : FaultKind) (s : State) : Bool :=
  decide (s.lifecycle = .halted) && decide (s.reason = .fault k)

/-- R26, a property of well-behaved programs and no check of the hardware: `sp` and `bp` lie in the stack region, or at its
exclusive top while the stack is empty (90_conflicts.md C14). -/
def State.stackDisciplined (s : State) : Bool :=
  decide (s.sp.toNat ≤ s.cfg.stackSize) && decide (s.bp.toNat ≤ s.cfg.stackSize)

/-- R27, a property of well-behaved programs and no check of the hardware: the text region is as loaded. -/
def State.textIntact (loaded : State) (s : State) : Bool := s.mem.text == loaded.mem.text

/-- A run of `n` steps is safe: no fault has halted the block. -/
def safeFor (n : Nat) (s : State) : Prop := ∀ k, k ≤ n → ∀ kind, (runFor k s).faulted kind = false

/-- A function of the state applied to the next state of an outcome; a stop stays as it is. -/
def mapNext (f : State → State) (o : Host.Outcome State Fault Refusal) : Host.Outcome State Fault Refusal :=
  match o with
  | .next s => .next (f s)
  | .fault r => .fault r
  | .refused r => .refused r

/-- What R140 says of one binary operator `i`, on the accumulators that meet `admits`; `result left ax v` says that `v` is its
result. Where the word at `sp` can be popped, the machine goes on with `sp` raised by 4 and the result in `ax`, and nothing else
changed. Where it cannot, `InvalidAddress` is taken with `sp` and `ax` unchanged. -/
def BinaryOperator (i : Instr) (admits : Word → Prop) (result : Word → Word → Word → Prop) : Prop :=
  ∀ s : State,
    (wordFits s.cfg s.sp = true → admits s.ax →
      ∃ left v, readWord s s.sp = .value left ∧ result left s.ax v ∧
        exec i s = .next { s with sp := s.sp + 4, ax := v }) ∧
    (wordFits s.cfg s.sp = false →
      exec i s = .next (takeFault (some (s.pc - 1)) (.invalidAddress .global s.sp .word .read) s))

/-- The instructions that can load `pc` with a word (R11, R129). -/
def transfersControl (i : Instr) : Bool :=
  [Instr.jmp, .jz, .jnz, .call, .lev].contains i

end Sys2Proof.Machine
end

