-- ==== Sys2Proof/Certificates/Slice0/Obligations.lean ====
section
/-! DEFINITION. The statements for the provers. A docstring cites the rule of the spec a statement formalises. Where a clause
rests on a choice the spec marks as its own, `[decision: D<n>]`, or on an inference it marks `[derived]`, the docstring says so;
where it rests on a choice of this model, the docstring names the log entry. -/

open Sys2Proof Sys2Proof.Machine

/-! The address space and the accessors. -/

/-- 20_memory.md R31: the region translator, range by range. -/
def Obligations.TranslatorSelectsRegionAndOffset : Prop :=
  ∀ (c : Config) (a : Word),
    (a.toNat < c.stackSize → translateAddr c a = some (.stack, a.toNat)) ∧
    (c.stackSize ≤ a.toNat → a.toNat < c.stackSize + c.dataSize →
      translateAddr c a = some (.data, a.toNat - c.stackSize)) ∧
    (c.stackSize + c.dataSize ≤ a.toNat → a.toNat < c.stackSize + c.dataSize + c.textSize →
      translateAddr c a = some (.text, a.toNat - c.stackSize - c.dataSize)) ∧
    (c.stackSize + c.dataSize + c.textSize ≤ a.toNat → translateAddr c a = none)

/-- 10_state.md R18 and 20_memory.md R30: each (region, offset) below the region's size backs exactly one global address, and
each address below END is backed by exactly one (region, offset). -/
def Obligations.EachAddressIsBackedByOneRegionByte : Prop :=
  ∀ c : Config, c.sizesLegal = true →
    (∀ (r : Region) (o : Nat), o < c.sizeOf r → ∃ a : Word, translateAddr c a = some (r, o) ∧
      ∀ b : Word, translateAddr c b = some (r, o) → b = a) ∧
    (∀ a : Word, a.toNat < c.endAddr →
      ∃ (r : Region) (o : Nat), translateAddr c a = some (r, o) ∧ o < c.sizeOf r) ∧
    (∀ a : Word, c.endAddr ≤ a.toNat → translateAddr c a = none)

/-- 20_memory.md R52: the byte and the word round trip, the value an accessor write returns, and that a write changes no byte
other than the one or four it names. The premise is the canonical form, which every step keeps. -/
def Obligations.AccessorRoundTripLaws : Prop :=
  ∀ (s : State) (a : Word), s.mem.wf = true →
    (∀ v : Byte, a.toNat < s.cfg.endAddr →
      ∃ t, writeByte s a v = .value (v, t) ∧ readByte t a = .value v ∧
        ∀ b, outside a 1 b → readByte t b = readByte s b) ∧
    (∀ (w : Word) (r : Region) (o : Nat), translateAddr s.cfg a = some (r, o) → o + 3 < s.cfg.sizeOf r →
      ∃ t, writeWord s a w = .value (w, t) ∧ readWord t a = .value w ∧
        ∀ b, outside a 4 b → readByte t b = readByte s b)

/-- 20_memory.md R39, 30_encoding.md R62: a word is its four bytes, most significant at the lowest address, in data and in the
instruction stream alike. -/
def Obligations.WordsAreBigEndian : Prop :=
  ∀ (s : State) (a : Word), s.cfg.sizesLegal = true →
    (∀ w, readWord s a = .value w → ∃ b0 b1 b2 b3 : Byte,
      readByte s a = .value b0 ∧ readByte s (a + 1) = .value b1 ∧ readByte s (a + 2) = .value b2 ∧
        readByte s (a + 3) = .value b3 ∧
        w.toNat = b0.toNat * 2 ^ 24 + b1.toNat * 2 ^ 16 + b2.toNat * 2 ^ 8 + b3.toNat) ∧
    (∀ w, textReadWord s a = .value w → ∃ b0 b1 b2 b3 : Byte,
      textReadByte s a = .value b0 ∧ textReadByte s (a + 1) = .value b1 ∧ textReadByte s (a + 2) = .value b2 ∧
        textReadByte s (a + 3) = .value b3 ∧
        w.toNat = b0.toNat * 2 ^ 24 + b1.toNat * 2 ^ 16 + b2.toNat * 2 ^ 8 + b3.toNat)

/-- 20_memory.md section 2 (R37, with R33 to R36): exactly the accesses that lie in one region succeed, reads
and writes alike, a write handing back the value written; every other one raises
`InvalidAddress` with the address, the width and the kind of the access, and hands back no state. That a word across a region
boundary faults is the spec's own choice (D15). -/
def Obligations.AccessOutsideOneRegionRaises : Prop :=
  ∀ (s : State) (a : Word),
    ((∃ v, readByte s a = .value v) ↔ byteFits s.cfg a = true) ∧
    (byteFits s.cfg a = true → ∀ v, ∃ t, writeByte s a v = .value (v, t)) ∧
    (byteFits s.cfg a = false → readByte s a = .raise (.invalidAddress .global a .byte .read) ∧
      ∀ v, writeByte s a v = .raise (.invalidAddress .global a .byte .write)) ∧
    ((∃ w, readWord s a = .value w) ↔ wordFits s.cfg a = true) ∧
    (wordFits s.cfg a = true → ∀ w, ∃ t, writeWord s a w = .value (w, t)) ∧
    (wordFits s.cfg a = false → readWord s a = .raise (.invalidAddress .global a .word .read) ∧
      ∀ w, writeWord s a w = .raise (.invalidAddress .global a .word .write))

/-- 20_memory.md R42: a text-local read that fits equals the accessor read at TEXT_BASE + off; one that does not raises
`InvalidAddress`, text-local. That an offset is never wrapped into another region is the spec's own choice (D16). -/
def Obligations.TextReadsStayInTheTextRegion : Prop :=
  ∀ (s : State) (off : Word), s.cfg.sizesLegal = true →
    (off.toNat + 1 ≤ s.cfg.textSize →
      textReadByte s off = readByte s (BitVec.ofNat 32 (s.cfg.textBase + off.toNat)) ∧
        ∃ v, textReadByte s off = .value v) ∧
    (s.cfg.textSize < off.toNat + 1 → textReadByte s off = .raise (.invalidAddress .textLocal off .byte .read)) ∧
    (off.toNat + 4 ≤ s.cfg.textSize →
      textReadWord s off = readWord s (BitVec.ofNat 32 (s.cfg.textBase + off.toNat)) ∧
        ∃ w, textReadWord s off = .value w) ∧
    (s.cfg.textSize < off.toNat + 4 → textReadWord s off = .raise (.invalidAddress .textLocal off .word .read))

/-! Encoding. -/

/-- 30_encoding.md R65: decoding is a function of the opcode byte alone, and fixes the length. -/
def Obligations.DecodingInvertsTheOpcodeMap : Prop :=
  ∀ m : OpcodeMap, m.injective = true →
    (∀ (b : Byte) (i : Instr), decodeOpcode m b = some i ↔ m.byteOf i = b) ∧
    (∀ b : Byte, decodeOpcode m b = none ↔ ∀ i, m.byteOf i ≠ b) ∧
    (∀ (bytes rest : List Byte) (a : AsmInstr), decode m bytes = .instr a rest →
      bytes.length = a.op.format.length + rest.length)

/-- 30_encoding.md section 4 (R64, R66): under the default map, which is the spec's own choice (D2), exactly the bytes 0x26 to
0xFF are unknown; the map is injective. -/
def Obligations.DefaultMapUnknownBytes : Prop :=
  OpcodeMap.reference.injective = true ∧
    ∀ b : Byte, decodeOpcode OpcodeMap.reference b = none ↔ 0x26 ≤ b.toNat

/-- 30_encoding.md sections 1 and 2 (R61 to R63, R70): under every injective map, decoding the bytes of a well-formed
instruction, with every operand its format admits and whatever follows, gives it back. The formats are an inference the spec
marks [derived], LEA's signed byte its own choice (D10). -/
def Obligations.DecodeOfEncodeIsTheInstruction : Prop :=
  ∀ (m : OpcodeMap) (a : AsmInstr) (rest : List Byte), m.injective = true → a.wellFormed = true →
    decode m (encode m a ++ rest) = .instr a rest ∧ (encode m a).length = a.op.format.length

/-- 30_encoding.md sections 1 and 2: the other direction. Whatever decodes, decodes to a well-formed instruction whose encoding
is the bytes read, so each byte string has one meaning. -/
def Obligations.DecodedBytesAreTheEncoding : Prop :=
  ∀ (m : OpcodeMap) (a : AsmInstr) (bytes rest : List Byte), decode m bytes = .instr a rest →
    a.wellFormed = true ∧ bytes = encode m a ++ rest

/-- Sanity: words written out from the encodings of 30_encoding.md section 3 (default map, D2), one of each family. -/
def Obligations.WrittenOutWordsDecode : Prop :=
  decode .reference [0x00, 0x12, 0x34, 0x56, 0x78] = .instr ⟨.imm, .word 0x12345678⟩ [] ∧
    decode .reference [0x0D, 0x80, 0x25] = .instr ⟨.lea, .offset (-128)⟩ [0x25] ∧
    decode .reference [0x09, 0x00, 0x00, 0x00, 0x0C] = .instr ⟨.call, .word 12⟩ [] ∧
    decode .reference [0x19] = .instr ⟨.add, .absent⟩ [] ∧
    decode .reference [0x21] = .instr ⟨.prtf, .absent⟩ [] ∧
    decode .reference [0x26] = .rejected (.unknownOpcode 0x26) ∧
    decode .reference [0x06, 0x00] = .rejected (.truncatedOperand .jmp)

/-- 30_encoding.md section 6 (R70, the spec's own syntax, D32): a listing of well-formed instructions assembles to their
encodings one after another, and a label stands for the text offset of what follows it. That a name defined again keeps its
first definition, and that a label at the end of the listing means its length, are the model's own choice (log entry 16). -/
def Obligations.ListingsAssembleToTheirBytes : Prop :=
  (∀ (m : OpcodeMap) (program : List AsmInstr), (∀ a ∈ program, a.wellFormed = true) →
    assemble m (program.map .instr) = some (program.flatMap (encode m))) ∧
  (∀ (m : OpcodeMap) (before after : List AsmItem) (name : List Char) (bytes : List Byte),
    (∀ item ∈ before, item ≠ .label name) →
    assembleItems m (before ++ .label name :: after) before = some bytes →
    labelOffset name (before ++ .label name :: after) 0 = some bytes.length)

/-! The dispatcher. -/

/-- 40_dispatch.md R81, R82: the fetch, the advance of `pc` by 1, and the routing. The read comes first: if it raises, `pc` is
not advanced and no handler runs. -/
def Obligations.StepFetchesAdvancesAndRoutes : Prop :=
  ∀ s : State, s.lifecycle = .running →
    (∀ op i, textReadByte s s.pc = .value op → decodeOpcode s.cfg.opcodeMap op = some i →
      step s = exec i { s with pc := s.pc + 1 }) ∧
    (∀ op, textReadByte s s.pc = .value op → decodeOpcode s.cfg.opcodeMap op = none →
      step s = .next (takeFault (some s.pc) (.unknownOpcode op) { s with pc := s.pc + 1 })) ∧
    (∀ d, textReadByte s s.pc = .raise d → step s = .next (takeFault (some s.pc) d s))

/-- 40_dispatch.md sections 1 and 2: when the bytes at `pc` decode to an instruction (which is then well formed), the step is
`exec` of that instruction on the state with `pc` past the opcode byte, and what its handler finds at `pc` is its operand. -/
def Obligations.StepRunsTheDecodedInstruction : Prop :=
  ∀ (s : State) (bytes rest : List Byte) (a : AsmInstr), s.lifecycle = .running → s.cfg.sizesLegal = true →
    textHolds s s.pc.toNat bytes = true → decode s.cfg.opcodeMap bytes = .instr a rest →
    step s = exec a.op { s with pc := s.pc + 1 } ∧
    (∀ imm, a.operand = .word imm → textReadWord s (s.pc + 1) = .value (BitVec.ofNat 32 imm)) ∧
    (∀ off, a.operand = .offset off → textReadByte s (s.pc + 1) = .value (BitVec.ofInt 8 off))

/-- 40_dispatch.md section 1 (R90, an inference the spec marks [derived]): a `pc` at or beyond TEXT_SIZE faults at the fetch,
with `pc` kept. -/
def Obligations.FetchBeyondTheTextRegionFaults : Prop :=
  ∀ s : State, s.lifecycle = .running → s.cfg.textSize ≤ s.pc.toNat →
    step s = .next (takeFault (some s.pc) (.invalidAddress .textLocal s.pc .byte .read) s)

/-- 44_hostcall_reserved.md section 'Unknown opcode bytes' (R178; that it is fatal is the spec's own choice, D5): a byte no
mnemonic has halts the block with the byte in the record and `pc` past it. -/
def Obligations.UnknownOpcodeHalts : Prop :=
  ∀ s : State, s.lifecycle = .running → s.pc.toNat < s.cfg.textSize →
    (∀ i, s.cfg.opcodeMap.byteOf i ≠ cellAt s.mem.text s.pc.toNat) →
    step s = .next { s with
      pc := s.pc + 1
      lifecycle := .halted
      reason := .fault .unknownOpcode
      faultInfo := some ⟨some s.pc, .unknownOpcode (cellAt s.mem.text s.pc.toNat)⟩
      diags := s.diags ++ [.unknownOpcode] }

/-- 40_dispatch.md R83: a step of a running block ends in exactly one of three ways: it goes on; or it halts on a fault, with the
fetched instruction's offset and the fault in the record and one `Diag`; or it halts cleanly, which only EXIT requests. -/
def Obligations.StepEndsInOneOfThreeWays : Prop :=
  ∀ s : State, s.lifecycle = .running → ∃ t, step s = .next t ∧
    ((t.lifecycle = .running ∧ t.reason = s.reason ∧ t.faultInfo = s.faultInfo ∧ t.diags = s.diags) ∨
      (t.lifecycle = .halted ∧ ∃ d : FaultDetail, d.kind ≠ .oversizedProgram ∧ t.reason = .fault d.kind ∧
        t.faultInfo = some ⟨some s.pc, d⟩ ∧ t.diags = s.diags ++ [d.kind]) ∨
      (textReadByte s s.pc = .value (s.cfg.opcodeMap.byteOf .exit) ∧
        t = { s with pc := s.pc + 1, lifecycle := .halted, reason := .exit }))

/-- 60_exceptions.md section 2 (R200): what the halt entry on a fault writes, and that no further step is performed, however many are
asked for (that such a step is a next state equal to the last one is the model's choice, log entry 2). -/
def Obligations.FaultHaltEntry : Prop :=
  ∀ (insnPc : Option Word) (d : FaultDetail) (s : State),
    takeFault insnPc d s = { s with
      lifecycle := .halted
      reason := .fault d.kind
      faultInfo := some ⟨insnPc, d⟩
      diags := s.diags ++ [d.kind] } ∧
    ∀ n, Sys2Proof.core.run n (takeFault insnPc d s) = .next (takeFault insnPc d s)

/-- 40_dispatch.md section 1 (R80) and 60_exceptions.md section 2 (R203): outside `Running` the dispatcher does nothing, however
often it is asked; `Halted` is terminal. The idle step is the model's choice (log entry 2). -/
def Obligations.DispatcherIsIdleOutsideRunning : Prop :=
  ∀ (s : State) (n : Nat), s.lifecycle ≠ .running → Sys2Proof.core.run n s = .next s

/-- 40_dispatch.md section 2 (R85): a handler's output is a function of the registers and the memory. Run with another lifecycle
state and another termination record, it leaves the same registers and memory and ends in the same way. -/
def Obligations.HandlersReadOnlyRegistersAndMemory : Prop :=
  ∀ (i : Instr) (s : State) (l : Lifecycle) (r : Reason) (f : Option FaultInfo) (ds : List FaultKind),
    ∃ t u, exec i s = .next t ∧
      exec i { s with lifecycle := l, reason := r, faultInfo := f, diags := ds } = .next u ∧
      (u.cfg = t.cfg ∧ u.pc = t.pc ∧ u.bp = t.bp ∧ u.sp = t.sp ∧ u.ax = t.ax ∧ u.mem = t.mem) ∧
      ((t.lifecycle = s.lifecycle ∧ t.reason = s.reason ∧ t.faultInfo = s.faultInfo ∧ t.diags = s.diags ∧
          u.lifecycle = l ∧ u.reason = r ∧ u.faultInfo = f ∧ u.diags = ds) ∨
        (t.lifecycle = .halted ∧ u.lifecycle = .halted ∧ u.reason = t.reason ∧
          ((t.reason = .exit ∧ t.faultInfo = s.faultInfo ∧ u.faultInfo = f ∧ t.diags = s.diags ∧ u.diags = ds) ∨
            ∃ p d, t.faultInfo = some ⟨some p, d⟩ ∧ u.faultInfo = some ⟨some p, d⟩ ∧ t.reason = .fault d.kind ∧
              t.diags = s.diags ++ [d.kind] ∧ u.diags = ds ++ [d.kind])))

/-! Immediate, load, store, push. -/

/-- 41_load_store.md R100. -/
def Obligations.ImmLoadsItsOperand : Prop :=
  ∀ s : State,
    (s.pc.toNat + 4 ≤ s.cfg.textSize → ∃ imm, textReadWord s s.pc = .value imm ∧
      exec .imm s = .next { s with ax := imm, pc := s.pc + 4 }) ∧
    (s.cfg.textSize < s.pc.toNat + 4 →
      exec .imm s = .next (takeFault (some (s.pc - 1)) (.invalidAddress .textLocal s.pc .word .read) s))

/-- 41_load_store.md, LC (R101): the byte at `ax`, zero-extended, which is the spec's own choice (D8). -/
def Obligations.LcLoadsAByteZeroExtended : Prop :=
  ∀ s : State,
    (s.ax.toNat < s.cfg.endAddr → ∃ b v, readByte s s.ax = .value b ∧ v.toNat = b.toNat ∧
      exec .lc s = .next { s with ax := v }) ∧
    (s.cfg.endAddr ≤ s.ax.toNat →
      exec .lc s = .next (takeFault (some (s.pc - 1)) (.invalidAddress .global s.ax .byte .read) s))

/-- 41_load_store.md R102. -/
def Obligations.LiLoadsAWord : Prop :=
  ∀ s : State,
    (wordFits s.cfg s.ax = true → ∃ w, readWord s s.ax = .value w ∧ exec .li s = .next { s with ax := w }) ∧
    (wordFits s.cfg s.ax = false →
      exec .li s = .next (takeFault (some (s.pc - 1)) (.invalidAddress .global s.ax .word .read) s))

/-- 41_load_store.md, SC (R103): the low byte of `ax` goes to address `sp`; `ax` keeps it zero-extended, which is the spec's own
choice (D9). Nothing is popped and no other byte of memory changes. -/
def Obligations.ScStoresTheLowByte : Prop :=
  ∀ s : State,
    (s.mem.wf = true → s.sp.toNat < s.cfg.endAddr → ∃ m v,
      v.toNat = s.ax.toNat % 256 ∧ ByteStored s m (storeAddress s) (BitVec.ofNat 8 s.ax.toNat) ∧
      exec .sc s = .next { s with mem := m, ax := v }) ∧
    (s.cfg.endAddr ≤ s.sp.toNat →
      exec .sc s = .next (takeFault (some (s.pc - 1)) (.invalidAddress .global s.sp .byte .write) s))

/-- 41_load_store.md R104. -/
def Obligations.SiStoresTheAccumulator : Prop :=
  ∀ s : State,
    (s.mem.wf = true → wordFits s.cfg s.sp = true → ∃ m,
      WordStored s m (storeAddress s) s.ax ∧ exec .si s = .next { s with mem := m }) ∧
    (wordFits s.cfg s.sp = false →
      exec .si s = .next (takeFault (some (s.pc - 1)) (.invalidAddress .global s.sp .word .write) s))

/-- 41_load_store.md, PUSH (R105), for both strides, which are the spec's own choice (D3): `sp` is lowered by PUSH_STRIDE, then the word is written there; where it does not
fit, the lowering stands, the spec's own choice (D18, log entry 12), and no byte is written. -/
def Obligations.PushLowersSpAndStores : Prop :=
  ∀ s : State,
    pushAddress s = s.sp - (match s.cfg.pushStride with | .four => 4 | .five => 5) ∧
    (s.mem.wf = true → wordFits s.cfg (pushAddress s) = true → ∃ m,
      WordStored s m (pushAddress s) s.ax ∧ exec .push s = .next { s with sp := pushAddress s, mem := m }) ∧
    (wordFits s.cfg (pushAddress s) = false →
      exec .push s = .next (takeFault (some (s.pc - 1)) (.invalidAddress .global (pushAddress s) .word .write)
        { s with sp := pushAddress s }))

/-! Control transfer and frames. -/

/-- 42_control_frame.md R120. -/
def Obligations.JmpLoadsPcFromItsOperand : Prop :=
  ∀ s : State,
    (s.pc.toNat + 4 ≤ s.cfg.textSize → ∃ target, textReadWord s s.pc = .value target ∧
      exec .jmp s = .next { s with pc := target }) ∧
    (s.cfg.textSize < s.pc.toNat + 4 →
      exec .jmp s = .next (takeFault (some (s.pc - 1)) (.invalidAddress .textLocal s.pc .word .read) s))

/-- 42_control_frame.md, Jumps (R121, R122): JZ and JNZ both jump when `ax` is zero and fall through by 4 when it is not, the 4
being the spec's own choice (D4); not taken, the operand is not read and cannot fault, its own choice too (D28). -/
def Obligations.JzAndJnzJumpOnZero : Prop :=
  ∀ (i : Instr) (s : State), i = .jz ∨ i = .jnz →
    (s.ax ≠ 0 → exec i s = .next { s with pc := s.pc + 4 }) ∧
    (s.ax = 0 → s.pc.toNat + 4 ≤ s.cfg.textSize → ∃ target, textReadWord s s.pc = .value target ∧
      exec i s = .next { s with pc := target }) ∧
    (s.ax = 0 → s.cfg.textSize < s.pc.toNat + 4 →
      exec i s = .next (takeFault (some (s.pc - 1)) (.invalidAddress .textLocal s.pc .word .read) s))

/-- 42_control_frame.md, CALL (R123): the link, the offset of CALL's own operand, is pushed first; the target is read from the text as
it stands after that store. The exceptions come in that order. The strides, the order of the faults and what stands after them
are the spec's own choices (D3, D18; log entry 12). -/
def Obligations.CallPushesTheLinkThenJumps : Prop :=
  ∀ s : State,
    (s.mem.wf = true → wordFits s.cfg (pushAddress s) = true → ∃ m, WordStored s m (pushAddress s) s.pc ∧
      (s.pc.toNat + 4 ≤ s.cfg.textSize → ∃ target, textReadWord { s with mem := m } s.pc = .value target ∧
        exec .call s = .next { s with sp := pushAddress s, mem := m, pc := target }) ∧
      (s.cfg.textSize < s.pc.toNat + 4 →
        exec .call s = .next (takeFault (some (s.pc - 1)) (.invalidAddress .textLocal s.pc .word .read)
          { s with sp := pushAddress s, mem := m }))) ∧
    (wordFits s.cfg (pushAddress s) = false →
      exec .call s = .next (takeFault (some (s.pc - 1)) (.invalidAddress .global (pushAddress s) .word .write)
        { s with sp := pushAddress s }))

/-- 42_control_frame.md, ENT (R124): `bp` is pushed, becomes the lowered `sp`, and `sp` is lowered by N BYTES; the operand is read from
the text as it stands after the push. The exceptions come in that order. The strides, the increment of 4, bytes as the unit and
what stands after a fault are the spec's own choices (D3, D4, D31, D18; log entry 12). -/
def Obligations.EntOpensAFrame : Prop :=
  ∀ s : State,
    (s.mem.wf = true → wordFits s.cfg (pushAddress s) = true → ∃ m, WordStored s m (pushAddress s) s.bp ∧
      (s.pc.toNat + 4 ≤ s.cfg.textSize → ∃ n, textReadWord { s with mem := m } s.pc = .value n ∧
        exec .ent s = .next { s with bp := pushAddress s, sp := pushAddress s - n, mem := m, pc := s.pc + 4 }) ∧
      (s.cfg.textSize < s.pc.toNat + 4 →
        exec .ent s = .next (takeFault (some (s.pc - 1)) (.invalidAddress .textLocal s.pc .word .read)
          { s with bp := pushAddress s, sp := pushAddress s, mem := m }))) ∧
    (wordFits s.cfg (pushAddress s) = false →
      exec .ent s = .next (takeFault (some (s.pc - 1)) (.invalidAddress .global (pushAddress s) .word .write)
        { s with sp := pushAddress s }))

/-- 42_control_frame.md, ADJ (R125). The increment of 4 and bytes as the unit are the spec's own choices (D4, D31). -/
def Obligations.AdjRaisesSp : Prop :=
  ∀ s : State,
    (s.pc.toNat + 4 ≤ s.cfg.textSize → ∃ n, textReadWord s s.pc = .value n ∧
      exec .adj s = .next { s with sp := s.sp + n, pc := s.pc + 4 }) ∧
    (s.cfg.textSize < s.pc.toNat + 4 →
      exec .adj s = .next (takeFault (some (s.pc - 1)) (.invalidAddress .textLocal s.pc .word .read) s))

/-- 42_control_frame.md, LEV (R126). That the `sp` and `bp` already written stand when either read faults is the spec's own choice
(D18, R201), which the model takes among those R201 allows (log entry 12). -/
def Obligations.LevRestoresTheFrame : Prop :=
  ∀ s : State,
    (wordFits s.cfg s.bp = true → wordFits s.cfg (s.bp + 4) = true → ∃ savedBp link,
      readWord s s.bp = .value savedBp ∧ readWord s (s.bp + 4) = .value link ∧
      exec .lev s = .next { s with bp := savedBp, pc := link, sp := s.bp + 8 }) ∧
    (wordFits s.cfg s.bp = true → wordFits s.cfg (s.bp + 4) = false → ∃ savedBp, readWord s s.bp = .value savedBp ∧
      exec .lev s = .next (takeFault (some (s.pc - 1)) (.invalidAddress .global (s.bp + 4) .word .read)
        { s with bp := savedBp, sp := s.bp + 4 })) ∧
    (wordFits s.cfg s.bp = false →
      exec .lev s = .next (takeFault (some (s.pc - 1)) (.invalidAddress .global s.bp .word .read)
        { s with sp := s.bp }))

/-- 42_control_frame.md R127: the word AT bp + off * 4, with `off` signed and the sum mod 2^32 (the signed byte is the spec's own
choice, D10). That the operand read comes before the data read, and that the raised `pc` stands when the latter faults, is the
spec's own choice too (D18, R201, R202), which the model takes (log entry 12). -/
def Obligations.LeaLoadsAFrameWord : Prop :=
  ∀ s : State,
    (s.pc.toNat < s.cfg.textSize → ∃ off, textReadByte s s.pc = .value off ∧
      ∀ a : Word, (a.toNat : Int) = (s.bp.toNat + off.toInt * 4) % 2 ^ 32 →
        (wordFits s.cfg a = true → ∃ w, readWord s a = .value w ∧
          exec .lea s = .next { s with pc := s.pc + 1, ax := w }) ∧
        (wordFits s.cfg a = false →
          exec .lea s = .next (takeFault (some (s.pc - 1)) (.invalidAddress .global a .word .read)
            { s with pc := s.pc + 1 }))) ∧
    (s.cfg.textSize ≤ s.pc.toNat →
      exec .lea s = .next (takeFault (some (s.pc - 1)) (.invalidAddress .textLocal s.pc .byte .read) s))

/-- 42_control_frame.md, LEV (R126) and 95_test_vectors.md S6: with PUSH_STRIDE 4, CALL, then ENT, then LEV, each fetched in
turn, restores `bp` and `sp` to their values before CALL and sets `pc` to the link, whatever N is. -/
def Obligations.CallEntLevRoundTrip : Prop :=
  ∀ s t u : State, s.mem.wf = true → s.cfg.sizesLegal = true → s.cfg.pushStride = .four → s.lifecycle = .running →
    exec .call s = .next t → t.lifecycle = .running →
    exec .ent { t with pc := t.pc + 1 } = .next u → u.lifecycle = .running →
    exec .lev { u with pc := u.pc + 1 } = .next { u with pc := s.pc, sp := s.sp, bp := s.bp }

/-- 70_reset_and_hazards.md section 5 (R242, an inference the spec marks [derived]): with PUSH_STRIDE 5, where the word LEV takes
for the link lies in one region, LEV restores `bp`, sets `pc` to the byte at bp + 4 followed by the upper three bytes of the
link, and leaves `sp` 2 below its value before CALL. -/
def Obligations.StrideFiveMisreadsTheLink : Prop :=
  ∀ s t u : State, s.mem.wf = true → s.cfg.sizesLegal = true → s.cfg.pushStride = .five → s.lifecycle = .running →
    exec .call s = .next t → t.lifecycle = .running →
    exec .ent { t with pc := t.pc + 1 } = .next u → u.lifecycle = .running → wordFits u.cfg (u.bp + 4) = true →
    ∃ m link : Word, (∃ b : Byte, readByte s (u.bp + 4) = .value b ∧ m.toNat = b.toNat) ∧
      link.toNat = m.toNat * 2 ^ 24 + s.pc.toNat / 256 ∧
      exec .lev { u with pc := u.pc + 1 } = .next { u with pc := link, sp := s.sp - 2, bp := s.bp }

/-- 70_reset_and_hazards.md section 5 (R230, R236, inferences the spec marks [derived]): under the default map a zero byte at `pc`
is an IMM that takes the next four bytes, which is what a return to CALL's operand runs for a target below 2^24, and what zero
text runs. -/
def Obligations.ZeroByteRunsAsImm : Prop :=
  ∀ (s : State) (b0 b1 b2 x : Byte), s.lifecycle = .running → s.cfg.opcodeMap = .reference →
    s.cfg.sizesLegal = true → textHolds s s.pc.toNat [0x00, b0, b1, b2, x] = true →
    ∃ v : Word, v.toNat = (b0.toNat * 2 ^ 16 + b1.toNat * 2 ^ 8 + b2.toNat) * 256 + x.toNat ∧
      step s = .next { s with ax := v, pc := s.pc + 5 }

/-! The binary operators. -/

/-- 43_binary_ops.md R141 to R143, over the skeleton R140. -/
def Obligations.BitwiseOperators : Prop :=
  BinaryOperator .or (fun _ => True)
      (fun left ax v => ∀ k, k < 32 → v.getLsbD k = (left.getLsbD k || ax.getLsbD k)) ∧
    BinaryOperator .xor (fun _ => True)
      (fun left ax v => ∀ k, k < 32 → v.getLsbD k = (left.getLsbD k != ax.getLsbD k)) ∧
    BinaryOperator .and (fun _ => True)
      (fun left ax v => ∀ k, k < 32 → v.getLsbD k = (left.getLsbD k && ax.getLsbD k))

/-- 43_binary_ops.md R144, R145, over the skeleton R140. -/
def Obligations.EqualityOperators : Prop :=
  BinaryOperator .eq (fun _ => True) (fun left ax v => v = if left.toNat = ax.toNat then 1 else 0) ∧
    BinaryOperator .ne (fun _ => True) (fun left ax v => v = if left.toNat = ax.toNat then 0 else 1)

/-- 43_binary_ops.md, Comparisons (R146 to R149): that they compare the unsigned values is the spec's own choice (D11). -/
def Obligations.OrderingOperators : Prop :=
  BinaryOperator .lt (fun _ => True) (fun left ax v => v = if left.toNat < ax.toNat then 1 else 0) ∧
    BinaryOperator .gt (fun _ => True) (fun left ax v => v = if ax.toNat < left.toNat then 1 else 0) ∧
    BinaryOperator .le (fun _ => True) (fun left ax v => v = if left.toNat ≤ ax.toNat then 1 else 0) ∧
    BinaryOperator .ge (fun _ => True) (fun left ax v => v = if ax.toNat ≤ left.toNat then 1 else 0)

/-- 43_binary_ops.md, Shifts (R150, R151): a count below 32. That SHR is logical is the spec's own choice (D11). -/
def Obligations.ShiftsBelowThirtyTwo : Prop :=
  BinaryOperator .shl (fun ax => ax.toNat < 32)
      (fun left ax v => v.toNat = left.toNat * 2 ^ ax.toNat % 2 ^ 32) ∧
    BinaryOperator .shr (fun ax => ax.toNat < 32) (fun left ax v => v.toNat = left.toNat / 2 ^ ax.toNat)

/-- 43_binary_ops.md R152 to R154, over the skeleton R140: the exact result mod 2^32; SUB takes the accumulator from the popped
word. -/
def Obligations.AddSubMulModulo : Prop :=
  BinaryOperator .add (fun _ => True) (fun left ax v => v.toNat = (left.toNat + ax.toNat) % 2 ^ 32) ∧
    BinaryOperator .sub (fun _ => True)
      (fun left ax v => (v.toNat : Int) = ((left.toNat : Int) - (ax.toNat : Int)) % 2 ^ 32) ∧
    BinaryOperator .mul (fun _ => True) (fun left ax v => v.toNat = left.toNat * ax.toNat % 2 ^ 32)

/-- 43_binary_ops.md, Arithmetic (R155, R156): unsigned division, truncating, which is the spec's own choice (D11). -/
def Obligations.DivModByNonzero : Prop :=
  BinaryOperator .div (fun ax => ax ≠ 0) (fun left ax v => v.toNat = left.toNat / ax.toNat) ∧
    BinaryOperator .mod (fun ax => ax ≠ 0)
      (fun left ax v => v.toNat = left.toNat % ax.toNat ∧ v.toNat < ax.toNat)

/-- 60_exceptions.md section 1 (R194, R195): SHL and SHR by 32 or more and DIV and MOD by 0 fault, which is the spec's own choice
(D12, D13), after the pop: `sp` is raised, `ax` is not written (D18, log entry 12). -/
def Obligations.OperatorFaultsComeAfterThePop : Prop :=
  ∀ s : State, wordFits s.cfg s.sp = true →
    (∀ i, i = .shl ∨ i = .shr → 32 ≤ s.ax.toNat →
      exec i s = .next (takeFault (some (s.pc - 1)) (.shiftCount s.ax) { s with sp := s.sp + 4 })) ∧
    (∀ i, i = .div ∨ i = .mod → s.ax = 0 →
      exec i s = .next (takeFault (some (s.pc - 1)) .divideByZero { s with sp := s.sp + 4 }))

/-! Reserved opcodes and EXIT. -/

/-- 44_hostcall_reserved.md (R170 to R176, R179; that they fault is the spec's own choice, D6): the seven host-call opcodes do
nothing but take `ReservedOpcode`, with the opcode byte in the record; registers and memory stay. -/
def Obligations.ReservedOpcodesFault : Prop :=
  ∀ (i : Instr) (s : State),
    i = .open_ ∨ i = .read ∨ i = .clos ∨ i = .prtf ∨ i = .malc ∨ i = .mset ∨ i = .mcmp →
    exec i s = .next { s with
      lifecycle := .halted
      reason := .fault .reservedOpcode
      faultInfo := some ⟨some (s.pc - 1), .reservedOpcode (s.cfg.opcodeMap.byteOf i)⟩
      diags := s.diags ++ [.reservedOpcode] }

/-- 44_hostcall_reserved.md, EXIT (R177) and 60_exceptions.md section 2 (R209): the clean halt, which is the spec's own choice
(D7); registers, memory, the record and the `Diag` events stay. -/
def Obligations.ExitHaltsCleanly : Prop :=
  ∀ s : State, exec .exit s = .next { s with lifecycle := .halted, reason := .exit }

/-! Frames over all instructions. -/

/-- 70_reset_and_hazards.md section 5 (R234) and 20_memory.md section 4 (R51), inferences the spec marks [derived]: whatever an
instruction does, a fault among it, no byte outside the ones it stores to changes; the other 33 store nowhere. -/
def Obligations.MemoryChangesOnlyWhereStored : Prop :=
  ∀ (i : Instr) (s t : State), exec i s = .next t →
    (storeSpan i s = none → t.mem = s.mem) ∧
    (∀ a n, storeSpan i s = some (a, n) → ∀ b, outside a n b → readByte t b = readByte s b)

/-- 10_state.md section 1 (R13): `bp` is written only by ENT and LEV and read only by ENT, LEV and LEA: with another `bp` every
other instruction does the same and leaves that `bp`. -/
def Obligations.BpTouchedOnlyByEntLevLea : Prop :=
  (∀ (i : Instr) (s t : State), i ≠ .ent → i ≠ .lev → exec i s = .next t → t.bp = s.bp) ∧
  (∀ (i : Instr) (s : State) (v : Word), i ≠ .ent → i ≠ .lev → i ≠ .lea →
    exec i { s with bp := v } = mapNext (fun t => { t with bp := v }) (exec i s))

/-- 10_state.md section 1 (R14): JMP, CALL, ENT, ADJ, LEV and EXIT neither read nor write `ax`, and no more do the seven
reserved opcodes, which do nothing but fault: with another `ax` each does the same and leaves that `ax`. PUSH, JZ and JNZ, which
read it, do not write it. -/
def Obligations.AxTouchedOnlyByItsInstructions : Prop :=
  (∀ (i : Instr) (s : State) (v : Word),
    i ∈ [Instr.jmp, .call, .ent, .adj, .lev, .open_, .read, .clos, .prtf, .malc, .mset, .mcmp, .exit] →
    exec i { s with ax := v } = mapNext (fun t => { t with ax := v }) (exec i s)) ∧
  (∀ (i : Instr) (s t : State),
    i = .push ∨ i = .jz ∨ i = .jnz → exec i s = .next t → t.ax = s.ax)

/-- 10_state.md section 1 (R12): `sp` is read and written by PUSH, CALL, ENT, ADJ, LEV and the binary operators, and read by SC
and SI, and by nothing else. -/
def Obligations.SpTouchedOnlyByItsInstructions : Prop :=
  (∀ (i : Instr) (s : State) (v : Word),
    i ∈ [Instr.imm, .lc, .li, .jmp, .jz, .jnz, .lea, .open_, .read, .clos, .prtf, .malc, .mset, .mcmp, .exit] →
    exec i { s with sp := v } = mapNext (fun t => { t with sp := v }) (exec i s)) ∧
  (∀ (i : Instr) (s t : State), i = .sc ∨ i = .si → exec i s = .next t → t.sp = s.sp)

/-- 10_state.md section 1 (R11) and 00_scope.md section 4 (R4, whose margin is the spec's own choice, D1): in a legal
configuration a step that goes on and transfers no control moves `pc` past the instruction, without wrapping; so does a JZ or
JNZ not taken. -/
def Obligations.PcAdvancesByTheInstructionLength : Prop :=
  ∀ (s t : State) (op : Byte) (i : Instr), s.lifecycle = .running → s.cfg.sizesLegal = true →
    textReadByte s s.pc = .value op → decodeOpcode s.cfg.opcodeMap op = some i →
    transfersControl i = false ∨ ((i = .jz ∨ i = .jnz) ∧ s.ax ≠ 0) →
    step s = .next t → t.lifecycle = .running → t.pc.toNat = s.pc.toNat + i.format.length

/-- 20_memory.md section 5 (R44, R47, the spec's own choice, D19): a byte stored at a text address is what the next fetch at that
offset reads. -/
def Obligations.StoreIntoTextIsFetched : Prop :=
  ∀ (s : State) (off : Word) (v : Byte), s.mem.wf = true → s.cfg.sizesLegal = true → off.toNat < s.cfg.textSize →
    ∃ t, writeByte s (BitVec.ofNat 32 (s.cfg.textBase + off.toNat)) v = .value (v, t) ∧
      textReadByte t off = .value v ∧ fetchOpcode { t with pc := off } = .value v

/-- 70_reset_and_hazards.md section 1 (R220) and 10_state.md section 3 (R18): the configuration is fixed for the life of the
block: no step and no host command changes it. That it stands in State is the model's choice (log entry 1). -/
def Obligations.ConfigurationNeverChanges : Prop :=
  (∀ s t : State, step s = .next t → t.cfg = s.cfg) ∧ ∀ (c : Command) (s : State), (transact c s).2.cfg = s.cfg

/-! Reset, load, run. -/

/-- 10_state.md section 5 (R23 to R25), for every configuration: the memory is zero, the registers are at the values the spec
decides (D14), and nothing is recorded. -/
def Obligations.ResetValues : Prop :=
  ∀ c : Config, c.sizesLegal = true →
    (State.resetOf c).cfg = c ∧
    (State.resetOf c).pc = 0 ∧ (State.resetOf c).ax = 0 ∧ (State.resetOf c).sp.toNat = c.stackSize ∧
    (State.resetOf c).bp.toNat = c.stackSize ∧
    (∀ a : Word, a.toNat < c.endAddr → readByte (State.resetOf c) a = .value 0x00) ∧
    (State.resetOf c).lifecycle = .empty ∧ (State.resetOf c).reason = .none ∧
    (State.resetOf c).faultInfo = none ∧ (State.resetOf c).diags = [] ∧
    State.reset = State.resetOf referenceConfig ∧ State.reset.sp = 0x00040000

/-- 70_reset_and_hazards.md section 2 (R222; that an empty stream is a load is the spec's own choice, D27): a stream that fits,
in `Empty`, goes to the text region from offset 0 on, and the rest of the block but the lifecycle state stays. -/
def Obligations.LoadPlacesTheStream : Prop :=
  ∀ (s : State) (bytes : List Byte), s.lifecycle = .empty → s.mem.wf = true → bytes.length ≤ s.cfg.textSize →
    ∃ m : Memory, transact (.load bytes) s = (.ok, { s with mem := m, lifecycle := .loaded }) ∧
      m.stack = s.mem.stack ∧ m.data = s.mem.data ∧
      ∀ o, cellAt m.text o = (bytes[o]?).getD (cellAt s.mem.text o)

/-- 70_reset_and_hazards.md section 2 (R223; that the block then halts is the spec's own choice, D20): a stream longer than
TEXT_SIZE, in `Empty`, changes no byte and halts the block with its length in the record and no `insn_pc`. -/
def Obligations.OversizedLoadHaltsUnchanged : Prop :=
  ∀ (s : State) (bytes : List Byte), s.lifecycle = .empty → s.cfg.textSize < bytes.length →
    transact (.load bytes) s = (.oversizedProgram, { s with
      lifecycle := .halted
      reason := .fault .oversizedProgram
      faultInfo := some ⟨none, .oversizedProgram bytes.length⟩
      diags := s.diags ++ [.oversizedProgram] })

/-- 60_exceptions.md section 1 (R197) and 70_reset_and_hazards.md section 2 (R224), the spec's own choice (D20): a command in the
wrong lifecycle state answers ProtocolError and changes nothing. -/
def Obligations.WrongStateCommandsAreRefused : Prop :=
  ∀ s : State,
    (∀ bytes, s.lifecycle ≠ .empty → transact (.load bytes) s = (.protocolError, s)) ∧
    (s.lifecycle ≠ .loaded → transact .execute s = (.protocolError, s))

/-- 70_reset_and_hazards.md sections 2 and 3 (R220, R222, R225, R229): whatever the block held, after Reset, a Load that fits and
Execute it is running with the registers at their reset values, the stream in the text region, zeros everywhere else, and
nothing recorded. The register values are the spec's own choice (D14). That Execute answers `started` with the block `Running`
before any step is the model's choice (log entry 7). -/
def Obligations.LaunchStateIsDetermined : Prop :=
  ∀ (s : State) (bytes : List Byte), bytes.length ≤ s.cfg.textSize →
    ∃ t, t = (transact .execute (transact (.load bytes) (transact .reset s).2).2).2 ∧
      t = { State.resetOf s.cfg with lifecycle := .running, mem := ⟨[], [], t.mem.text⟩ } ∧
      (transact .execute (transact (.load bytes) (transact .reset s).2).2).1 = .started ∧
      ∀ o, cellAt t.mem.text o = (bytes[o]?).getD 0x00

/-! The invariant. -/

/-- 10_state.md section 5: the block meets the invariant right after reset, in every configuration. -/
def Obligations.ResetMeetsTheInvariant : Prop :=
  (∀ c : Config, (State.resetOf c).Inv = true) ∧ State.reset.Inv = true

/-- 10_state.md sections 3 and 4 (R18 to R21), 60_exceptions.md sections 1 and 2 (R199, R207, R209): from every state that meets
the invariant, a step leads to one that does: memory stays canonical and inside its regions; the termination record agrees with
the lifecycle state, with exactly one `Diag` per fault halt and none otherwise; before the run nothing but the loaded text
differs from reset. -/
def Obligations.StepKeepsTheInvariant : Prop :=
  ∀ s t : State, s.Inv = true → step s = .next t → t.Inv = true

/-- 10_state.md section 4 (R19 to R21), 70_reset_and_hazards.md sections 1 to 3: so does every host command. -/
def Obligations.TransactionsKeepTheInvariant : Prop :=
  ∀ (c : Command) (s : State), s.Inv = true → (transact c s).2.Inv = true
end

