-- ==== Sys2Proof/Laws/State.lean ====
section
/-! SUPPORT. One lemma per field of State per named update, true by rfl. -/

namespace Sys2Proof.Machine

@[simp] theorem State.setPc_cfg (s : State) (v : Word) : (s.setPc v).cfg = s.cfg := rfl
@[simp] theorem State.setPc_pc (s : State) (v : Word) : (s.setPc v).pc = v := rfl
@[simp] theorem State.setPc_bp (s : State) (v : Word) : (s.setPc v).bp = s.bp := rfl
@[simp] theorem State.setPc_sp (s : State) (v : Word) : (s.setPc v).sp = s.sp := rfl
@[simp] theorem State.setPc_ax (s : State) (v : Word) : (s.setPc v).ax = s.ax := rfl
@[simp] theorem State.setPc_mem (s : State) (v : Word) : (s.setPc v).mem = s.mem := rfl
@[simp] theorem State.setPc_lifecycle (s : State) (v : Word) : (s.setPc v).lifecycle = s.lifecycle := rfl
@[simp] theorem State.setPc_reason (s : State) (v : Word) : (s.setPc v).reason = s.reason := rfl
@[simp] theorem State.setPc_faultInfo (s : State) (v : Word) : (s.setPc v).faultInfo = s.faultInfo := rfl
@[simp] theorem State.setPc_diags (s : State) (v : Word) : (s.setPc v).diags = s.diags := rfl

@[simp] theorem State.setBp_cfg (s : State) (v : Word) : (s.setBp v).cfg = s.cfg := rfl
@[simp] theorem State.setBp_pc (s : State) (v : Word) : (s.setBp v).pc = s.pc := rfl
@[simp] theorem State.setBp_bp (s : State) (v : Word) : (s.setBp v).bp = v := rfl
@[simp] theorem State.setBp_sp (s : State) (v : Word) : (s.setBp v).sp = s.sp := rfl
@[simp] theorem State.setBp_ax (s : State) (v : Word) : (s.setBp v).ax = s.ax := rfl
@[simp] theorem State.setBp_mem (s : State) (v : Word) : (s.setBp v).mem = s.mem := rfl
@[simp] theorem State.setBp_lifecycle (s : State) (v : Word) : (s.setBp v).lifecycle = s.lifecycle := rfl
@[simp] theorem State.setBp_reason (s : State) (v : Word) : (s.setBp v).reason = s.reason := rfl
@[simp] theorem State.setBp_faultInfo (s : State) (v : Word) : (s.setBp v).faultInfo = s.faultInfo := rfl
@[simp] theorem State.setBp_diags (s : State) (v : Word) : (s.setBp v).diags = s.diags := rfl

@[simp] theorem State.setSp_cfg (s : State) (v : Word) : (s.setSp v).cfg = s.cfg := rfl
@[simp] theorem State.setSp_pc (s : State) (v : Word) : (s.setSp v).pc = s.pc := rfl
@[simp] theorem State.setSp_bp (s : State) (v : Word) : (s.setSp v).bp = s.bp := rfl
@[simp] theorem State.setSp_sp (s : State) (v : Word) : (s.setSp v).sp = v := rfl
@[simp] theorem State.setSp_ax (s : State) (v : Word) : (s.setSp v).ax = s.ax := rfl
@[simp] theorem State.setSp_mem (s : State) (v : Word) : (s.setSp v).mem = s.mem := rfl
@[simp] theorem State.setSp_lifecycle (s : State) (v : Word) : (s.setSp v).lifecycle = s.lifecycle := rfl
@[simp] theorem State.setSp_reason (s : State) (v : Word) : (s.setSp v).reason = s.reason := rfl
@[simp] theorem State.setSp_faultInfo (s : State) (v : Word) : (s.setSp v).faultInfo = s.faultInfo := rfl
@[simp] theorem State.setSp_diags (s : State) (v : Word) : (s.setSp v).diags = s.diags := rfl

@[simp] theorem State.setAx_cfg (s : State) (v : Word) : (s.setAx v).cfg = s.cfg := rfl
@[simp] theorem State.setAx_pc (s : State) (v : Word) : (s.setAx v).pc = s.pc := rfl
@[simp] theorem State.setAx_bp (s : State) (v : Word) : (s.setAx v).bp = s.bp := rfl
@[simp] theorem State.setAx_sp (s : State) (v : Word) : (s.setAx v).sp = s.sp := rfl
@[simp] theorem State.setAx_ax (s : State) (v : Word) : (s.setAx v).ax = v := rfl
@[simp] theorem State.setAx_mem (s : State) (v : Word) : (s.setAx v).mem = s.mem := rfl
@[simp] theorem State.setAx_lifecycle (s : State) (v : Word) : (s.setAx v).lifecycle = s.lifecycle := rfl
@[simp] theorem State.setAx_reason (s : State) (v : Word) : (s.setAx v).reason = s.reason := rfl
@[simp] theorem State.setAx_faultInfo (s : State) (v : Word) : (s.setAx v).faultInfo = s.faultInfo := rfl
@[simp] theorem State.setAx_diags (s : State) (v : Word) : (s.setAx v).diags = s.diags := rfl

@[simp] theorem State.setMem_cfg (s : State) (m : Memory) : (s.setMem m).cfg = s.cfg := rfl
@[simp] theorem State.setMem_pc (s : State) (m : Memory) : (s.setMem m).pc = s.pc := rfl
@[simp] theorem State.setMem_bp (s : State) (m : Memory) : (s.setMem m).bp = s.bp := rfl
@[simp] theorem State.setMem_sp (s : State) (m : Memory) : (s.setMem m).sp = s.sp := rfl
@[simp] theorem State.setMem_ax (s : State) (m : Memory) : (s.setMem m).ax = s.ax := rfl
@[simp] theorem State.setMem_mem (s : State) (m : Memory) : (s.setMem m).mem = m := rfl
@[simp] theorem State.setMem_lifecycle (s : State) (m : Memory) : (s.setMem m).lifecycle = s.lifecycle := rfl
@[simp] theorem State.setMem_reason (s : State) (m : Memory) : (s.setMem m).reason = s.reason := rfl
@[simp] theorem State.setMem_faultInfo (s : State) (m : Memory) : (s.setMem m).faultInfo = s.faultInfo := rfl
@[simp] theorem State.setMem_diags (s : State) (m : Memory) : (s.setMem m).diags = s.diags := rfl

@[simp] theorem State.setLifecycle_cfg (s : State) (l : Lifecycle) : (s.setLifecycle l).cfg = s.cfg := rfl
@[simp] theorem State.setLifecycle_pc (s : State) (l : Lifecycle) : (s.setLifecycle l).pc = s.pc := rfl
@[simp] theorem State.setLifecycle_bp (s : State) (l : Lifecycle) : (s.setLifecycle l).bp = s.bp := rfl
@[simp] theorem State.setLifecycle_sp (s : State) (l : Lifecycle) : (s.setLifecycle l).sp = s.sp := rfl
@[simp] theorem State.setLifecycle_ax (s : State) (l : Lifecycle) : (s.setLifecycle l).ax = s.ax := rfl
@[simp] theorem State.setLifecycle_mem (s : State) (l : Lifecycle) : (s.setLifecycle l).mem = s.mem := rfl
@[simp] theorem State.setLifecycle_lifecycle (s : State) (l : Lifecycle) : (s.setLifecycle l).lifecycle = l := rfl
@[simp] theorem State.setLifecycle_reason (s : State) (l : Lifecycle) : (s.setLifecycle l).reason = s.reason := rfl
@[simp] theorem State.setLifecycle_faultInfo (s : State) (l : Lifecycle) : (s.setLifecycle l).faultInfo = s.faultInfo := rfl
@[simp] theorem State.setLifecycle_diags (s : State) (l : Lifecycle) : (s.setLifecycle l).diags = s.diags := rfl

@[simp] theorem takeFault_cfg (p : Option Word) (d : FaultDetail) (s : State) : (takeFault p d s).cfg = s.cfg := rfl
@[simp] theorem takeFault_pc (p : Option Word) (d : FaultDetail) (s : State) : (takeFault p d s).pc = s.pc := rfl
@[simp] theorem takeFault_bp (p : Option Word) (d : FaultDetail) (s : State) : (takeFault p d s).bp = s.bp := rfl
@[simp] theorem takeFault_sp (p : Option Word) (d : FaultDetail) (s : State) : (takeFault p d s).sp = s.sp := rfl
@[simp] theorem takeFault_ax (p : Option Word) (d : FaultDetail) (s : State) : (takeFault p d s).ax = s.ax := rfl
@[simp] theorem takeFault_mem (p : Option Word) (d : FaultDetail) (s : State) : (takeFault p d s).mem = s.mem := rfl
@[simp] theorem takeFault_lifecycle (p : Option Word) (d : FaultDetail) (s : State) : (takeFault p d s).lifecycle = .halted := rfl
@[simp] theorem takeFault_reason (p : Option Word) (d : FaultDetail) (s : State) : (takeFault p d s).reason = .fault d.kind := rfl
@[simp] theorem takeFault_faultInfo (p : Option Word) (d : FaultDetail) (s : State) : (takeFault p d s).faultInfo = some ⟨p, d⟩ := rfl
@[simp] theorem takeFault_diags (p : Option Word) (d : FaultDetail) (s : State) : (takeFault p d s).diags = s.diags ++ [d.kind] := rfl

@[simp] theorem takeExit_cfg (s : State) : (takeExit s).cfg = s.cfg := rfl
@[simp] theorem takeExit_pc (s : State) : (takeExit s).pc = s.pc := rfl
@[simp] theorem takeExit_bp (s : State) : (takeExit s).bp = s.bp := rfl
@[simp] theorem takeExit_sp (s : State) : (takeExit s).sp = s.sp := rfl
@[simp] theorem takeExit_ax (s : State) : (takeExit s).ax = s.ax := rfl
@[simp] theorem takeExit_mem (s : State) : (takeExit s).mem = s.mem := rfl
@[simp] theorem takeExit_lifecycle (s : State) : (takeExit s).lifecycle = .halted := rfl
@[simp] theorem takeExit_reason (s : State) : (takeExit s).reason = .exit := rfl
@[simp] theorem takeExit_faultInfo (s : State) : (takeExit s).faultInfo = s.faultInfo := rfl
@[simp] theorem takeExit_diags (s : State) : (takeExit s).diags = s.diags := rfl

@[simp] theorem advancePc_cfg (s : State) : (advancePc s).cfg = s.cfg := rfl
@[simp] theorem advancePc_pc (s : State) : (advancePc s).pc = s.pc + 1 := rfl
@[simp] theorem advancePc_bp (s : State) : (advancePc s).bp = s.bp := rfl
@[simp] theorem advancePc_sp (s : State) : (advancePc s).sp = s.sp := rfl
@[simp] theorem advancePc_ax (s : State) : (advancePc s).ax = s.ax := rfl
@[simp] theorem advancePc_mem (s : State) : (advancePc s).mem = s.mem := rfl
@[simp] theorem advancePc_lifecycle (s : State) : (advancePc s).lifecycle = s.lifecycle := rfl
@[simp] theorem advancePc_reason (s : State) : (advancePc s).reason = s.reason := rfl
@[simp] theorem advancePc_faultInfo (s : State) : (advancePc s).faultInfo = s.faultInfo := rfl
@[simp] theorem advancePc_diags (s : State) : (advancePc s).diags = s.diags := rfl

@[simp] theorem skipWord_cfg (s : State) : (skipWord s).cfg = s.cfg := rfl
@[simp] theorem skipWord_pc (s : State) : (skipWord s).pc = s.pc + 4 := rfl
@[simp] theorem skipWord_bp (s : State) : (skipWord s).bp = s.bp := rfl
@[simp] theorem skipWord_sp (s : State) : (skipWord s).sp = s.sp := rfl
@[simp] theorem skipWord_ax (s : State) : (skipWord s).ax = s.ax := rfl
@[simp] theorem skipWord_mem (s : State) : (skipWord s).mem = s.mem := rfl
@[simp] theorem skipWord_lifecycle (s : State) : (skipWord s).lifecycle = s.lifecycle := rfl
@[simp] theorem skipWord_reason (s : State) : (skipWord s).reason = s.reason := rfl
@[simp] theorem skipWord_faultInfo (s : State) : (skipWord s).faultInfo = s.faultInfo := rfl
@[simp] theorem skipWord_diags (s : State) : (skipWord s).diags = s.diags := rfl

@[simp] theorem skipByte_cfg (s : State) : (skipByte s).cfg = s.cfg := rfl
@[simp] theorem skipByte_pc (s : State) : (skipByte s).pc = s.pc + 1 := rfl
@[simp] theorem skipByte_bp (s : State) : (skipByte s).bp = s.bp := rfl
@[simp] theorem skipByte_sp (s : State) : (skipByte s).sp = s.sp := rfl
@[simp] theorem skipByte_ax (s : State) : (skipByte s).ax = s.ax := rfl
@[simp] theorem skipByte_mem (s : State) : (skipByte s).mem = s.mem := rfl
@[simp] theorem skipByte_lifecycle (s : State) : (skipByte s).lifecycle = s.lifecycle := rfl
@[simp] theorem skipByte_reason (s : State) : (skipByte s).reason = s.reason := rfl
@[simp] theorem skipByte_faultInfo (s : State) : (skipByte s).faultInfo = s.faultInfo := rfl
@[simp] theorem skipByte_diags (s : State) : (skipByte s).diags = s.diags := rfl

theorem Memory.cells_setRegion_same (m : Memory) (r : Region) (cells : List Host.Cell) :
    (m.setRegion r cells).cells r = cells := by
  cases r <;> rfl

theorem Memory.cells_setRegion_other (m : Memory) {r q : Region} (h : q ≠ r) (cells : List Host.Cell) :
    (m.setRegion r cells).cells q = m.cells q := by
  cases r <;> cases q <;> first | rfl | exact absurd rfl h

end Sys2Proof.Machine
end

