-- ==== Sys2Proof/Laws/Memory.lean ====
section
/-! SUPPORT. The laws of memory: a region's cells (read after write, the canonical form kept), byte order, the translator, and
for each accessor one lemma that says all it can answer. -/

namespace Sys2Proof.Machine

/-! The cells of one region. -/

theorem canonical_nil : canonical [] = true := rfl

theorem canonical_cons (k : Nat) (v : Byte) (rest : List Host.Cell) :
    canonical ((k, v) :: rest) = true ↔
      v ≠ unlistedByte ∧ (∀ x ∈ rest, k < x.1) ∧ canonical rest = true := by
  simp only [canonical, List.pairwise_cons, List.all_cons, Bool.and_eq_true, decide_eq_true_eq, bne_iff_ne]
  tauto

theorem cellAt_of_lt {cells : List Host.Cell} {o : Nat} (h : ∀ x ∈ cells, o < x.1) :
    cellAt cells o = unlistedByte := by
  induction cells with
  | nil => rfl
  | cons x rest ih =>
    have hx : o < x.1 := h x (by simp)
    obtain ⟨k, v⟩ := x
    rw [cellAt, if_neg (by simpa using (by omega : ¬ k = o))]
    exact ih fun y hy => h y (List.mem_cons_of_mem _ hy)

/-- Storing one byte leaves every other offset of the region alone. -/
theorem cellAt_setCell_other (cells : List Host.Cell) {o p : Nat} (b : Byte) (h : p ≠ o) :
    cellAt (setCell cells o b) p = cellAt cells p := by
  induction cells with
  | nil => by_cases hb : b = unlistedByte <;> simp [setCell, cellAt, hb, h.symm]
  | cons x rest ih =>
    obtain ⟨k, v⟩ := x
    simp only [setCell]
    split
    · split <;> simp [cellAt, h.symm]
    · split
      · rename_i hok
        have hkp : ¬ k = p := fun hk => h (hok ▸ hk.symm)
        split <;> simp [cellAt, hkp, hok]
      · simp only [cellAt, ih]

/-- A byte stored is read back. -/
theorem cellAt_setCell_same {cells : List Host.Cell} (hc : canonical cells = true) (o : Nat) (b : Byte) :
    cellAt (setCell cells o b) o = b := by
  induction cells with
  | nil => by_cases hb : b = unlistedByte <;> simp [setCell, cellAt, hb]
  | cons x rest ih =>
    obtain ⟨k, v⟩ := x
    obtain ⟨-, hlt, hrest⟩ := (canonical_cons k v rest).1 hc
    simp only [setCell]
    split
    · rename_i hok
      split
      · rename_i hb
        rw [hb, cellAt, if_neg (by omega)]
        exact cellAt_of_lt fun y hy => lt_trans hok (hlt y hy)
      · simp [cellAt]
    · split
      · rename_i hok
        split
        · rename_i hb
          rw [hb]
          exact cellAt_of_lt fun y hy => hok ▸ hlt y hy
        · simp [cellAt]
      · rename_i hne
        rw [cellAt, if_neg (by omega)]
        exact ih hrest

theorem mem_setCell {cells : List Host.Cell} {o : Nat} {b : Byte} {x : Host.Cell}
    (h : x ∈ setCell cells o b) : x ∈ cells ∨ (x = (o, b) ∧ b ≠ unlistedByte) := by
  induction cells with
  | nil => by_cases hb : b = unlistedByte <;> simp_all [setCell]
  | cons y rest ih =>
    obtain ⟨k, v⟩ := y
    simp only [setCell] at h
    split at h
    · split at h <;> simp_all
      tauto
    · split at h
      · split at h <;> simp_all
        tauto
      · simp only [List.mem_cons] at h ⊢
        rcases h with h | h
        · exact .inl (.inl h)
        · rcases ih h with h | h
          · exact .inl (.inr h)
          · exact .inr h

/-- Storing one byte keeps the canonical form. -/
theorem canonical_setCell {cells : List Host.Cell} (hc : canonical cells = true) (o : Nat) (b : Byte) :
    canonical (setCell cells o b) = true := by
  induction cells with
  | nil =>
    by_cases hb : b = unlistedByte
    · simp [setCell, hb, canonical_nil]
    · simp [setCell, hb, canonical_cons, canonical_nil]
  | cons x rest ih =>
    obtain ⟨k, v⟩ := x
    have hx := (canonical_cons k v rest).1 hc
    obtain ⟨hv, hlt, hrest⟩ := hx
    simp only [setCell]
    split
    · rename_i hok
      split
      · exact hc
      · rename_i hb
        refine (canonical_cons _ _ _).2 ⟨hb, fun y hy => ?_, hc⟩
        rcases List.mem_cons.1 hy with rfl | hy
        · exact hok
        · exact lt_trans hok (hlt y hy)
    · split
      · rename_i hok
        split
        · exact hrest
        · rename_i hb
          exact (canonical_cons _ _ _).2 ⟨hb, fun y hy => hok ▸ hlt y hy, hrest⟩
      · rename_i hn hne
        refine (canonical_cons _ _ _).2 ⟨hv, fun y hy => ?_, ih hrest⟩
        rcases mem_setCell hy with hy | ⟨rfl, -⟩
        · exact hlt y hy
        · show k < o
          omega

/-- Two regions in canonical form that read alike are the same list. -/
theorem canonical_ext {xs ys : List Host.Cell} (hx : canonical xs = true) (hy : canonical ys = true)
    (h : ∀ o, cellAt xs o = cellAt ys o) : xs = ys := by
  induction xs generalizing ys with
  | nil =>
    cases ys with
    | nil => rfl
    | cons y ys =>
      obtain ⟨k, v⟩ := y
      have := h k
      simp only [cellAt, if_true] at this
      exact absurd this.symm ((canonical_cons k v ys).1 hy).1
  | cons x xs ih =>
    obtain ⟨k, v⟩ := x
    obtain ⟨hv, hlt, hxs⟩ := (canonical_cons k v xs).1 hx
    cases ys with
    | nil =>
      have := h k
      simp only [cellAt, if_true] at this
      exact absurd this hv
    | cons y ys =>
      obtain ⟨j, w⟩ := y
      obtain ⟨hw, hlt', hys⟩ := (canonical_cons j w ys).1 hy
      have hjk : j = k := by
        rcases Nat.lt_trichotomy j k with hjk | hjk | hjk
        · have h1 := h j
          rw [cellAt_of_lt (cells := (k, v) :: xs) (fun z hz => by
            rcases List.mem_cons.1 hz with rfl | hz
            · exact hjk
            · exact lt_trans hjk (hlt z hz))] at h1
          simp only [cellAt, if_true] at h1
          exact absurd h1.symm hw
        · exact hjk
        · have h1 := h k
          rw [cellAt_of_lt (cells := (j, w) :: ys) (fun z hz => by
            rcases List.mem_cons.1 hz with rfl | hz
            · exact hjk
            · exact lt_trans hjk (hlt' z hz))] at h1
          simp only [cellAt, if_true] at h1
          exact absurd h1 hv
      subst hjk
      have hvw : v = w := by simpa [cellAt] using h j
      subst hvw
      congr 1
      refine ih hxs hys fun o => ?_
      by_cases ho : j = o
      · subst ho
        rw [cellAt_of_lt hlt, cellAt_of_lt hlt']
      · simpa [cellAt, ho] using h o

/-! Consecutive bytes of one region. -/

theorem canonical_setCells {cells : List Host.Cell} (hc : canonical cells = true) (o : Nat) (bytes : List Byte) :
    canonical (setCells cells o bytes) = true := by
  induction bytes generalizing cells o with
  | nil => exact hc
  | cons b rest ih => exact ih (canonical_setCell hc o b) (o + 1)

theorem cellAt_setCells_outside (cells : List Host.Cell) {o p : Nat} (bytes : List Byte)
    (h : p < o ∨ o + bytes.length ≤ p) : cellAt (setCells cells o bytes) p = cellAt cells p := by
  induction bytes generalizing cells o with
  | nil => rfl
  | cons b rest ih =>
    simp only [List.length_cons] at h
    rw [setCells, ih _ (by omega), cellAt_setCell_other _ _ (by omega)]

theorem cellAt_setCells_inside {cells : List Host.Cell} (hc : canonical cells = true) (o : Nat)
    (bytes : List Byte) {k : Nat} (h : k < bytes.length) :
    cellAt (setCells cells o bytes) (o + k) = bytes[k] := by
  induction bytes generalizing cells o k with
  | nil => simp at h
  | cons b rest ih =>
    rw [setCells]
    cases k with
    | zero =>
      rw [cellAt_setCells_outside _ _ (by omega)]
      exact cellAt_setCell_same hc o b
    | succ k =>
      have := ih (canonical_setCell hc o b) (o + 1) (k := k) (by simpa using h)
      rw [show o + (k + 1) = o + 1 + k by omega, this]
      rfl

theorem bounded_setCells {cells : List Host.Cell} {n o : Nat} {bytes : List Byte}
    (hc : ∀ x ∈ cells, x.1 < n) (h : o + bytes.length ≤ n) :
    ∀ x ∈ setCells cells o bytes, x.1 < n := by
  induction bytes generalizing cells o with
  | nil => exact hc
  | cons b rest ih =>
    simp only [List.length_cons] at h
    refine ih (fun x hx => ?_) (by omega)
    rcases mem_setCell hx with hx | ⟨rfl, -⟩
    · exact hc x hx
    · show o < n
      omega

/-! Byte order. -/

theorem toNat_append_byte {n : Nat} (x : BitVec n) (b : Byte) : (x ++ b).toNat = x.toNat * 2 ^ 8 + b.toNat := by
  rw [BitVec.toNat_append, ← Nat.shiftLeft_add_eq_or_of_lt b.isLt, Nat.shiftLeft_eq]

/-- The value of a word made of four bytes. -/
theorem toNat_wordOfBytes (b0 b1 b2 b3 : Byte) :
    (wordOfBytes b0 b1 b2 b3).toNat = b0.toNat * 2 ^ 24 + b1.toNat * 2 ^ 16 + b2.toNat * 2 ^ 8 + b3.toNat := by
  rw [wordOfBytes, toNat_append_byte, toNat_append_byte, toNat_append_byte]
  omega

theorem toNat_byteOfWord (w : Word) (k : Nat) :
    (byteOfWord w k).toNat = w.toNat / 2 ^ (8 * (3 - k)) % 2 ^ 8 := by
  rw [byteOfWord, BitVec.extractLsb'_toNat, Nat.shiftRight_eq_div_pow]

theorem wordOfBytes_byteOfWord (w : Word) :
    wordOfBytes (byteOfWord w 0) (byteOfWord w 1) (byteOfWord w 2) (byteOfWord w 3) = w := by
  apply BitVec.eq_of_toNat_eq
  have := w.isLt
  simp only [toNat_wordOfBytes, toNat_byteOfWord]
  omega

/-- Byte `k` of the word made of four bytes is the `k`-th of them. -/
theorem byteOfWord_wordOfBytes (b0 b1 b2 b3 : Byte) :
    byteOfWord (wordOfBytes b0 b1 b2 b3) 0 = b0 ∧ byteOfWord (wordOfBytes b0 b1 b2 b3) 1 = b1 ∧
      byteOfWord (wordOfBytes b0 b1 b2 b3) 2 = b2 ∧ byteOfWord (wordOfBytes b0 b1 b2 b3) 3 = b3 := by
  have h0 := b0.isLt; have h1 := b1.isLt; have h2 := b2.isLt; have h3 := b3.isLt
  refine ⟨?_, ?_, ?_, ?_⟩ <;> apply BitVec.eq_of_toNat_eq <;>
    simp only [toNat_byteOfWord, toNat_wordOfBytes] <;> omega

theorem cellWordAt_setCellWord {cells : List Host.Cell} (hc : canonical cells = true) (o : Nat) (w : Word) :
    cellWordAt (setCellWord cells o w) o = w := by
  have hk := fun k (hk : k < 4) => cellAt_setCells_inside hc o
    [byteOfWord w 0, byteOfWord w 1, byteOfWord w 2, byteOfWord w 3] (k := k) hk
  simp only [cellWordAt, setCellWord]
  rw [show cellAt _ o = _ from hk 0 (by omega), hk 1 (by omega), hk 2 (by omega), hk 3 (by omega)]
  exact wordOfBytes_byteOfWord w

/-! The translator. -/

/-- The owning region and offset of an address, and how the address is recovered from them. -/
theorem translate_spec (c : Config) (a : Word) :
    (∃ r o, translateAddr c a = some (r, o) ∧ o < c.sizeOf r ∧ c.baseOf r + o = a.toNat) ∨
      (translateAddr c a = none ∧ c.endAddr ≤ a.toNat) := by
  unfold translateAddr
  split
  · exact .inl ⟨.stack, _, rfl, ‹_›, by simp [Config.baseOf, Config.stackBase]⟩
  · split
    · exact .inl ⟨.data, _, rfl, by simp only [Config.sizeOf]; omega,
        by simp only [Config.baseOf, Config.dataBase]; omega⟩
    · split
      · rename_i h
        simp only [Config.endAddr] at h
        exact .inl ⟨.text, _, rfl, by simp only [Config.sizeOf]; omega,
          by simp only [Config.baseOf, Config.textBase]; omega⟩
      · exact .inr ⟨rfl, by omega⟩

/-- The three ranges do not overlap, and lie below `END`. -/
theorem region_unique {c : Config} {r q : Region} {o p : Nat} (hr : o < c.sizeOf r) (hq : p < c.sizeOf q)
    (h : c.baseOf r + o = c.baseOf q + p) : r = q ∧ o = p := by
  cases r <;> cases q <;>
    simp only [Config.sizeOf, Config.baseOf, Config.stackBase, Config.dataBase, Config.textBase] at * <;>
    simp <;> omega

theorem lt_endAddr {c : Config} {r : Region} {o : Nat} (hr : o < c.sizeOf r) : c.baseOf r + o < c.endAddr := by
  cases r <;>
    simp only [Config.sizeOf, Config.baseOf, Config.stackBase, Config.dataBase, Config.textBase,
      Config.endAddr] at * <;> omega

/-- A region and an offset in it stand for exactly one address. -/
theorem translate_eq_some_iff (c : Config) (a : Word) (r : Region) (o : Nat) :
    translateAddr c a = some (r, o) ↔ o < c.sizeOf r ∧ c.baseOf r + o = a.toNat := by
  rcases translate_spec c a with ⟨q, p, h, hp, hb⟩ | ⟨h, he⟩
  · rw [h, Option.some.injEq, Prod.mk.injEq]
    constructor
    · rintro ⟨rfl, rfl⟩
      exact ⟨hp, hb⟩
    · rintro ⟨ho, hb'⟩
      obtain ⟨rfl, rfl⟩ := region_unique ho hp (hb'.trans hb.symm)
      exact ⟨rfl, rfl⟩
  · rw [h]
    refine ⟨fun h => by simp at h, fun ⟨ho, hb⟩ => ?_⟩
    have := lt_endAddr ho
    omega

theorem translate_eq_none_iff (c : Config) (a : Word) : translateAddr c a = none ↔ c.endAddr ≤ a.toNat := by
  rcases translate_spec c a with ⟨q, p, h, hp, hb⟩ | ⟨h, he⟩
  · have := lt_endAddr hp
    simp only [h, reduceCtorEq, false_iff]
    omega
  · simp [h, he]

theorem translateWord_eq_some_iff (c : Config) (a : Word) (r : Region) (o : Nat) :
    translateWord c a = some (r, o) ↔ o + 3 < c.sizeOf r ∧ c.baseOf r + o = a.toNat := by
  unfold translateWord
  constructor
  · intro h
    split at h
    · rename_i heq
      have ht := (translate_eq_some_iff _ _ _ _).1 heq
      split at h
      · rename_i hlt
        simp only [Option.some.injEq, Prod.mk.injEq] at h
        obtain ⟨rfl, rfl⟩ := h
        exact ⟨hlt, ht.2⟩
      · simp at h
    · simp at h
  · rintro ⟨h1, h2⟩
    rw [(translate_eq_some_iff c a r o).2 ⟨by omega, h2⟩]
    simp [h1]

theorem wordFits_iff (c : Config) (a : Word) :
    wordFits c a = true ↔ ∃ r, c.baseOf r ≤ a.toNat ∧ a.toNat + 4 ≤ c.baseOf r + c.sizeOf r := by
  simp only [wordFits, List.any_cons, List.any_nil, Bool.or_false, Bool.or_eq_true, Bool.and_eq_true,
    decide_eq_true_eq]
  constructor
  · rintro (h | h | h)
    exacts [⟨.stack, h⟩, ⟨.data, h⟩, ⟨.text, h⟩]
  · rintro ⟨r, h⟩
    cases r
    exacts [.inl h, .inr (.inl h), .inr (.inr h)]

theorem wordFits_iff_translateWord (c : Config) (a : Word) :
    wordFits c a = true ↔ ∃ r o, translateWord c a = some (r, o) := by
  rw [wordFits_iff]
  constructor
  · rintro ⟨r, h1, h2⟩
    exact ⟨r, a.toNat - c.baseOf r, (translateWord_eq_some_iff _ _ _ _).2 ⟨by omega, by omega⟩⟩
  · rintro ⟨r, o, h⟩
    have := (translateWord_eq_some_iff _ _ _ _).1 h
    exact ⟨r, by omega, by omega⟩

theorem translateWord_eq_none {c : Config} {a : Word} (h : wordFits c a = false) : translateWord c a = none := by
  cases ht : translateWord c a with
  | none => rfl
  | some p =>
    have := (wordFits_iff_translateWord c a).2 ⟨p.1, p.2, ht⟩
    simp [this] at h

/-! The accessors. -/

theorem Memory.wf_iff (m : Memory) : m.wf = true ↔ ∀ r, canonical (m.cells r) = true := by
  simp only [Memory.wf, Bool.and_eq_true]
  constructor
  · rintro ⟨⟨h1, h2⟩, h3⟩ r
    cases r <;> assumption
  · intro h
    exact ⟨⟨h .stack, h .data⟩, h .text⟩

theorem Memory.inBounds_iff (c : Config) (m : Memory) :
    m.inBounds c = true ↔ ∀ r, ∀ x ∈ m.cells r, x.1 < c.sizeOf r := by
  simp only [Memory.inBounds, Bool.and_eq_true, List.all_eq_true, decide_eq_true_eq]
  constructor
  · rintro ⟨⟨h1, h2⟩, h3⟩ r
    cases r <;> assumption
  · intro h
    exact ⟨⟨h .stack, h .data⟩, h .text⟩

/-- Equal memories are equal data. -/
theorem Memory.ext_of_wf {m n : Memory} (hm : m.wf = true) (hn : n.wf = true)
    (h : ∀ r o, cellAt (m.cells r) o = cellAt (n.cells r) o) : m = n := by
  have hr := fun r => canonical_ext ((wf_iff m).1 hm r) ((wf_iff n).1 hn r) (h r)
  obtain ⟨a, b, c⟩ := m
  obtain ⟨a', b', c'⟩ := n
  have h1 : a = a' := hr .stack
  have h2 : b = b' := hr .data
  have h3 : c = c' := hr .text
  rw [h1, h2, h3]

theorem wf_setRegion {m : Memory} (hm : m.wf = true) (r : Region) {cells : List Host.Cell}
    (hc : canonical cells = true) : (m.setRegion r cells).wf = true := by
  rw [Memory.wf_iff] at *
  intro q
  by_cases hq : q = r
  · subst hq
    rw [Memory.cells_setRegion_same]
    exact hc
  · rw [Memory.cells_setRegion_other _ hq]
    exact hm q

theorem inBounds_setRegion {c : Config} {m : Memory} (hm : m.inBounds c = true) (r : Region)
    {cells : List Host.Cell} (hc : ∀ x ∈ cells, x.1 < c.sizeOf r) : (m.setRegion r cells).inBounds c = true := by
  rw [Memory.inBounds_iff] at *
  intro q
  by_cases hq : q = r
  · subst hq
    rw [Memory.cells_setRegion_same]
    exact hc
  · rw [Memory.cells_setRegion_other _ hq]
    exact hm q

/-- What a memory operation keeps: the canonical form and the bounds of the regions. -/
def Memory.Kept (c : Config) (m n : Memory) : Prop :=
  (m.wf = true → n.wf = true) ∧ (m.inBounds c = true → n.inBounds c = true)

theorem Memory.Kept.refl (c : Config) (m : Memory) : Memory.Kept c m m := ⟨id, id⟩

/-- Storing bytes that fit in a region keeps the canonical form and the bounds. -/
theorem kept_setCells (c : Config) (m : Memory) (r : Region) {o : Nat} {bytes : List Byte}
    (h : o + bytes.length ≤ c.sizeOf r) :
    Memory.Kept c m (m.setRegion r (setCells (m.cells r) o bytes)) := by
  refine ⟨fun hm => ?_, fun hm => ?_⟩
  · exact wf_setRegion hm r (canonical_setCells ((Memory.wf_iff m).1 hm r) _ _)
  · exact inBounds_setRegion hm r (bounded_setCells ((Memory.inBounds_iff c m).1 hm r) h)

/-- All that `read_byte` can answer. -/
theorem readByte_spec (s : State) (a : Word) :
    (∃ r o, translateAddr s.cfg a = some (r, o) ∧ readByte s a = .value (cellAt (s.mem.cells r) o)) ∨
      (byteFits s.cfg a = false ∧ readByte s a = .raise (.invalidAddress .global a .byte .read)) := by
  unfold readByte
  cases h : translateAddr s.cfg a with
  | none =>
    right
    have := (translate_eq_none_iff _ _).1 h
    simp [byteFits]
    omega
  | some p => exact .inl ⟨p.1, p.2, rfl, rfl⟩

/-- All that `read_word` can answer. -/
theorem readWord_spec (s : State) (a : Word) :
    (∃ r o, translateWord s.cfg a = some (r, o) ∧ readWord s a = .value (cellWordAt (s.mem.cells r) o)) ∨
      (wordFits s.cfg a = false ∧ readWord s a = .raise (.invalidAddress .global a .word .read)) := by
  unfold readWord
  cases h : translateWord s.cfg a with
  | none =>
    right
    refine ⟨?_, rfl⟩
    by_contra hf
    obtain ⟨r, o, hs⟩ := (wordFits_iff_translateWord s.cfg a).1 (by simpa using hf)
    simp [h] at hs
  | some p => exact .inl ⟨p.1, p.2, rfl, rfl⟩

theorem readWord_of_fits {s : State} {a : Word} (h : wordFits s.cfg a = true) :
    ∃ w, readWord s a = .value w := by
  rcases readWord_spec s a with ⟨_, _, -, h'⟩ | ⟨hf, -⟩
  · exact ⟨_, h'⟩
  · simp [h] at hf

theorem readWord_of_not_fits {s : State} {a : Word} (h : wordFits s.cfg a = false) :
    readWord s a = .raise (.invalidAddress .global a .word .read) := by
  simp [readWord, translateWord_eq_none h]

theorem writeWord_of_not_fits {s : State} {a : Word} (w : Word) (h : wordFits s.cfg a = false) :
    writeWord s a w = .raise (.invalidAddress .global a .word .write) := by
  simp [writeWord, translateWord_eq_none h]

/-- Reading a byte depends on the configuration and the memory alone. -/
theorem readByte_congr {s t : State} (hc : t.cfg = s.cfg) (hm : t.mem = s.mem) (a : Word) :
    readByte t a = readByte s a := by
  simp [readByte, hc, hm]

theorem readWord_congr {s t : State} (hc : t.cfg = s.cfg) (hm : t.mem = s.mem) (a : Word) :
    readWord t a = readWord s a := by
  simp [readWord, hc, hm]

theorem textReadWord_congr {s t : State} (hc : t.cfg = s.cfg) (hm : t.mem = s.mem) (off : Word) :
    textReadWord t off = textReadWord s off := by
  simp [textReadWord, hc, hm]

theorem textReadByte_congr {s t : State} (hc : t.cfg = s.cfg) (hm : t.mem = s.mem) (off : Word) :
    textReadByte t off = textReadByte s off := by
  simp [textReadByte, hc, hm]

/-- Bytes stored in a region change no byte at an address outside them. -/
theorem readByte_setCells_outside (s : State) {r : Region} {o : Nat} {bytes : List Byte} {a b : Word}
    (ha : s.cfg.baseOf r + o = a.toNat) (hb : outside a bytes.length b) :
    readByte { s with mem := s.mem.setRegion r (setCells (s.mem.cells r) o bytes) } b = readByte s b := by
  unfold readByte
  dsimp only
  cases ht : translateAddr s.cfg b with
  | none => rfl
  | some p =>
    obtain ⟨q, p⟩ := p
    have hp := (translate_eq_some_iff _ _ _ _).1 ht
    dsimp only
    by_cases hq : q = r
    · subst hq
      rw [Memory.cells_setRegion_same, cellAt_setCells_outside]
      unfold outside at hb
      omega
    · rw [Memory.cells_setRegion_other _ hq]

/-- All that `write_byte` can answer. -/
theorem writeByte_spec (s : State) (a : Word) (v : Byte) :
    (byteFits s.cfg a = true ∧ ∃ m, writeByte s a v = .value (v, { s with mem := m }) ∧
        Memory.Kept s.cfg s.mem m ∧ (s.mem.wf = true → ByteStored s m a v) ∧
        ∀ b, outside a 1 b → readByte { s with mem := m } b = readByte s b) ∨
      (byteFits s.cfg a = false ∧ writeByte s a v = .raise (.invalidAddress .global a .byte .write)) := by
  unfold writeByte
  cases h : translateAddr s.cfg a with
  | none =>
    right
    have := (translate_eq_none_iff _ _).1 h
    simp [byteFits]
    omega
  | some p =>
    obtain ⟨r, o⟩ := p
    have hp := (translate_eq_some_iff _ _ _ _).1 h
    have hout : ∀ b, outside a 1 b →
        readByte { s with mem := s.mem.setRegion r (setCells (s.mem.cells r) o [v]) } b = readByte s b :=
      fun b hb => readByte_setCells_outside s hp.2 hb
    left
    refine ⟨?_, _, rfl, kept_setCells s.cfg s.mem r (bytes := [v]) (by simp; omega), fun hw => ⟨?_, hout⟩, hout⟩
    · by_contra hf
      have : translateAddr s.cfg a = none := (translate_eq_none_iff _ _).2 (by simpa [byteFits] using hf)
      simp [h] at this
    · show readByte { s with mem := s.mem.setRegion r (setCell (s.mem.cells r) o v) } a = .value v
      simp [readByte, h, Memory.cells_setRegion_same, cellAt_setCell_same ((Memory.wf_iff _).1 hw r)]

/-- All that `write_word` can answer. -/
theorem writeWord_spec (s : State) (a w : Word) :
    (wordFits s.cfg a = true ∧ ∃ m, writeWord s a w = .value (w, { s with mem := m }) ∧
        Memory.Kept s.cfg s.mem m ∧ (s.mem.wf = true → WordStored s m a w) ∧
        ∀ b, outside a 4 b → readByte { s with mem := m } b = readByte s b) ∨
      (wordFits s.cfg a = false ∧ writeWord s a w = .raise (.invalidAddress .global a .word .write)) := by
  unfold writeWord
  cases h : translateWord s.cfg a with
  | none =>
    right
    refine ⟨?_, rfl⟩
    by_contra hf
    obtain ⟨r, o, hs⟩ := (wordFits_iff_translateWord s.cfg a).1 (by simpa using hf)
    simp [h] at hs
  | some p =>
    obtain ⟨r, o⟩ := p
    have hp := (translateWord_eq_some_iff _ _ _ _).1 h
    have hout : ∀ b, outside a 4 b →
        readByte { s with mem := s.mem.setRegion r (setCellWord (s.mem.cells r) o w) } b = readByte s b :=
      fun b hb => readByte_setCells_outside s hp.2 hb
    left
    refine ⟨(wordFits_iff_translateWord _ _).2 ⟨r, o, h⟩, _, rfl,
      kept_setCells s.cfg s.mem r (by simp; omega), fun hw => ⟨?_, hout⟩, hout⟩
    simp [readWord, h, Memory.cells_setRegion_same, cellWordAt_setCellWord ((Memory.wf_iff _).1 hw r)]

/-! The text-local read. -/

theorem textReadWord_of_lt {s : State} {off : Word} (h : s.cfg.textSize < off.toNat + 4) :
    textReadWord s off = .raise (.invalidAddress .textLocal off .word .read) := by
  simp [textReadWord, show ¬ off.toNat + 4 ≤ s.cfg.textSize by omega]

theorem textReadWord_of_le {s : State} {off : Word} (h : off.toNat + 4 ≤ s.cfg.textSize) :
    textReadWord s off = .value (cellWordAt s.mem.text off.toNat) := by
  simp [textReadWord, h]

theorem textReadByte_of_le {s : State} {off : Word} (h : s.cfg.textSize ≤ off.toNat) :
    textReadByte s off = .raise (.invalidAddress .textLocal off .byte .read) := by
  simp [textReadByte, show ¬ off.toNat + 1 ≤ s.cfg.textSize by omega]

theorem textReadByte_of_lt {s : State} {off : Word} (h : off.toNat < s.cfg.textSize) :
    textReadByte s off = .value (cellAt s.mem.text off.toNat) := by
  simp [textReadByte, show off.toNat + 1 ≤ s.cfg.textSize by omega]

end Sys2Proof.Machine
end

