-- ==== Sys2Proof/Laws/Decode.lean ====
section
/-! SUPPORT. Decoding and encoding: what `decodeOpcode` answers under an injective map, and the two directions of the round
trip. -/

namespace Sys2Proof

theorem mem_all (i : Instr) : i ∈ Instr.all := by
  cases i <;> decide

theorem byteOf_injective {m : OpcodeMap} (hm : m.injective = true) {i j : Instr}
    (h : m.byteOf i = m.byteOf j) : i = j := by
  simp only [OpcodeMap.injective, decide_eq_true_eq] at hm
  exact List.inj_on_of_nodup_map hm (mem_all i) (mem_all j) h

theorem byteOf_of_decodeOpcode {m : OpcodeMap} {b : Byte} {i : Instr} (h : decodeOpcode m b = some i) :
    m.byteOf i = b := by
  simpa using List.find?_some h

theorem decodeOpcode_eq_none_iff (m : OpcodeMap) (b : Byte) :
    decodeOpcode m b = none ↔ ∀ i, m.byteOf i ≠ b := by
  simp only [decodeOpcode, List.find?_eq_none, beq_iff_eq]
  exact ⟨fun h i => h i (mem_all i), fun h i _ => h i⟩

/-- Under an injective map the opcode byte stands for one mnemonic (R65). -/
theorem decodeOpcode_eq_some_iff {m : OpcodeMap} (hm : m.injective = true) (b : Byte) (i : Instr) :
    decodeOpcode m b = some i ↔ m.byteOf i = b := by
  refine ⟨byteOf_of_decodeOpcode, fun h => ?_⟩
  cases hd : decodeOpcode m b with
  | none => exact absurd h ((decodeOpcode_eq_none_iff m b).1 hd i)
  | some j => rw [byteOf_injective hm ((byteOf_of_decodeOpcode hd).trans h.symm)]

theorem decodeOpcode_byteOf {m : OpcodeMap} (hm : m.injective = true) (i : Instr) :
    decodeOpcode m (m.byteOf i) = some i :=
  (decodeOpcode_eq_some_iff hm _ _).2 rfl

theorem reference_injective : OpcodeMap.reference.injective = true := by decide

/-! Operands. -/

/-- The three shapes of a well-formed instruction. -/
theorem wellFormed_cases {a : AsmInstr} (h : a.wellFormed = true) :
    (a.op.format = .op ∧ a.operand = .absent) ∨
      (a.op.format = .opB ∧ ∃ off : Int, a.operand = .offset off ∧ -128 ≤ off ∧ off ≤ 127) ∨
      (a.op.format = .opW ∧ ∃ imm : Nat, a.operand = .word imm ∧ imm < 2 ^ 32) := by
  unfold AsmInstr.wellFormed at h
  split at h <;> rename_i hf ho
  · exact .inl ⟨hf, ho⟩
  · simp only [Bool.and_eq_true, decide_eq_true_eq] at h
    exact .inr (.inl ⟨hf, _, ho, h⟩)
  · simp only [decide_eq_true_eq] at h
    exact .inr (.inr ⟨hf, _, ho, h⟩)
  · simp at h

theorem toInt_ofInt_byte {off : Int} (h1 : -128 ≤ off) (h2 : off ≤ 127) : (BitVec.ofInt 8 off).toInt = off := by
  rw [BitVec.toInt_ofInt]
  simp only [Int.bmod]
  omega

theorem toInt_byte_range (b : Byte) : -128 ≤ b.toInt ∧ b.toInt ≤ 127 := by
  have h1 := @BitVec.le_toInt 8 b
  have h2 := @BitVec.toInt_lt 8 b
  norm_num at h1 h2
  omega

theorem encodeOperand_length {a : AsmInstr} (h : a.wellFormed = true) :
    (encodeOperand a.operand).length + 1 = a.op.format.length := by
  rcases wellFormed_cases h with ⟨hf, ho⟩ | ⟨hf, off, ho, -⟩ | ⟨hf, imm, ho, -⟩ <;>
    simp [hf, ho, encodeOperand, Format.length]

/-- The operand of a well-formed instruction is read back from its encoding. -/
theorem decodeOperand_encodeOperand {a : AsmInstr} (h : a.wellFormed = true) (rest : List Byte) :
    decodeOperand a.op (encodeOperand a.operand ++ rest) = .instr a rest := by
  obtain ⟨i, operand⟩ := a
  rcases wellFormed_cases h with ⟨hf, ho⟩ | ⟨hf, off, ho, h1, h2⟩ | ⟨hf, imm, ho, hi⟩ <;>
    (dsimp only at hf ho; subst ho)
  · simp [decodeOperand, hf, encodeOperand]
  · simp only [encodeOperand, List.cons_append, List.nil_append, decodeOperand, hf]
    rw [toInt_ofInt_byte h1 h2]
  · simp only [encodeOperand, List.cons_append, List.nil_append, decodeOperand, hf,
      Machine.wordOfBytes_byteOfWord, BitVec.toNat_ofNat, Nat.mod_eq_of_lt hi]

/-- Decoding an encoded well-formed instruction gives it back, with the bytes after it. -/
theorem decode_encode {m : OpcodeMap} (hm : m.injective = true) {a : AsmInstr} (h : a.wellFormed = true)
    (rest : List Byte) : decode m (encode m a ++ rest) = .instr a rest := by
  simp only [encode, List.cons_append, decode, decodeOpcode_byteOf hm]
  exact decodeOperand_encodeOperand h rest

/-- Whatever decodes is well formed, and its encoding is the bytes it was read from. -/
theorem encode_of_decode {m : OpcodeMap} {bytes rest : List Byte} {a : AsmInstr}
    (h : decode m bytes = .instr a rest) : a.wellFormed = true ∧ bytes = encode m a ++ rest := by
  unfold decode at h
  split at h
  · simp at h
  · rename_i b tail
    split at h
    · simp at h
    · rename_i i hi
      have hb := byteOf_of_decodeOpcode hi
      unfold decodeOperand at h
      split at h <;> rename_i hf
      · simp only [Decoded.instr.injEq] at h
        obtain ⟨rfl, rfl⟩ := h
        exact ⟨by simp [AsmInstr.wellFormed, hf], by simp [encode, encodeOperand, hb]⟩
      · rename_i c tail'
        simp only [Decoded.instr.injEq] at h
        obtain ⟨rfl, rfl⟩ := h
        have hr := toInt_byte_range c
        exact ⟨by simp [AsmInstr.wellFormed, hf, hr], by simp [encode, encodeOperand, hb]⟩
      · rename_i b0 b1 b2 b3 tail'
        simp only [Decoded.instr.injEq] at h
        obtain ⟨rfl, rfl⟩ := h
        obtain ⟨h0, h1, h2, h3⟩ := Machine.byteOfWord_wordOfBytes b0 b1 b2 b3
        refine ⟨?_, ?_⟩
        · have := (wordOfBytes b0 b1 b2 b3).isLt
          simp only [AsmInstr.wellFormed, hf, decide_eq_true_eq]
          exact this
        · simp only [encode, encodeOperand, hb, BitVec.ofNat_toNat, BitVec.setWidth_eq, h0, h1, h2, h3,
            List.cons_append, List.nil_append]
      · simp at h

end Sys2Proof
end

