-- ==== Sys2Proof/Laws/Ops.lean ====
section
/-! SUPPORT. One lemma per shared operation and operand form, for each way it can end: what the rest of a handler is run on, or
which fault is taken in which state. A value read is given as a variable, so that no proof has to carry the bytes it is made
of. -/

namespace Sys2Proof.Machine

theorem readByte_of_fits {s : State} {a : Word} (h : a.toNat < s.cfg.endAddr) : ∃ b, readByte s a = .value b := by
  rcases readByte_spec s a with ⟨_, _, -, h'⟩ | ⟨hf, -⟩
  · exact ⟨_, h'⟩
  · simp only [byteFits, decide_eq_false_iff_not] at hf
    exact absurd h hf

theorem readByte_of_not_fits {s : State} {a : Word} (h : s.cfg.endAddr ≤ a.toNat) :
    readByte s a = .raise (.invalidAddress .global a .byte .read) := by
  simp [readByte, (translate_eq_none_iff s.cfg a).2 h]

theorem writeByte_of_not_fits {s : State} {a : Word} (v : Byte) (h : s.cfg.endAddr ≤ a.toNat) :
    writeByte s a v = .raise (.invalidAddress .global a .byte .write) := by
  simp [writeByte, (translate_eq_none_iff s.cfg a).2 h]

theorem writeByte_of_fits {s : State} {a : Word} (v : Byte) (h : a.toNat < s.cfg.endAddr) :
    ∃ m, writeByte s a v = .value (v, { s with mem := m }) ∧ Memory.Kept s.cfg s.mem m ∧
      (s.mem.wf = true → ByteStored s m a v) ∧
      ∀ b, outside a 1 b → readByte { s with mem := m } b = readByte s b := by
  rcases writeByte_spec s a v with ⟨-, h'⟩ | ⟨hf, -⟩
  · exact h'
  · simp only [byteFits, decide_eq_false_iff_not] at hf
    exact absurd h hf

theorem writeWord_of_fits {s : State} {a : Word} (w : Word) (h : wordFits s.cfg a = true) :
    ∃ m, writeWord s a w = .value (w, { s with mem := m }) ∧ Memory.Kept s.cfg s.mem m ∧
      (s.mem.wf = true → WordStored s m a w) ∧
      ∀ b, outside a 4 b → readByte { s with mem := m } b = readByte s b := by
  rcases writeWord_spec s a w with ⟨-, h'⟩ | ⟨hf, -⟩
  · exact h'
  · simp [h] at hf

theorem textReadWord_fits {s : State} {off : Word} (h : off.toNat + 4 ≤ s.cfg.textSize) :
    ∃ w, textReadWord s off = .value w := ⟨_, textReadWord_of_le h⟩

theorem textReadByte_fits {s : State} {off : Word} (h : off.toNat < s.cfg.textSize) :
    ∃ b, textReadByte s off = .value b := ⟨_, textReadByte_of_lt h⟩

/-! `andThen` and the dispatcher's conclusion. -/

theorem Checked.andThen_value {α : Type} (v : α) (s : State) (rest : α → HandlerResult) :
    (Checked.value v).andThen s rest = rest v := rfl

theorem Checked.andThen_raise {α : Type} (d : FaultDetail) (s : State) (rest : α → HandlerResult) :
    (Checked.raise d : Checked α).andThen s rest = .fault d s := rfl

theorem concludeHandler_proceed (start s : State) : concludeHandler start (.proceed s) = .next s := rfl

theorem concludeHandler_fault (start s : State) (d : FaultDetail) :
    concludeHandler start (.fault d s) = .next (takeFault (some (start.pc - 1)) d s) := rfl

theorem concludeHandler_exit (start s : State) : concludeHandler start (.exit s) = .next (takeExit s) := rfl

/-! Push, pop, jump. -/

theorem pushWord_of_fits {s : State} (w : Word) (rest : State → HandlerResult)
    (h : wordFits s.cfg (pushAddress s) = true) :
    ∃ m, pushWord s w rest = rest { s with sp := pushAddress s, mem := m } ∧ Memory.Kept s.cfg s.mem m ∧
      (s.mem.wf = true → WordStored s m (pushAddress s) w) ∧
      ∀ b, outside (pushAddress s) 4 b → readByte { s with mem := m } b = readByte s b := by
  obtain ⟨m, hm, hk, hs, hf⟩ := writeWord_of_fits (s := s.setSp (pushAddress s)) w h
  refine ⟨m, ?_, hk, hs, hf⟩
  show (writeWord (s.setSp (pushAddress s)) (pushAddress s) w).andThen _ _ = _
  rw [hm]
  rfl

theorem pushWord_of_not_fits {s : State} (w : Word) (rest : State → HandlerResult)
    (h : wordFits s.cfg (pushAddress s) = false) :
    pushWord s w rest =
      .fault (.invalidAddress .global (pushAddress s) .word .write) { s with sp := pushAddress s } := by
  show (writeWord (s.setSp (pushAddress s)) (pushAddress s) w).andThen _ _ = _
  rw [writeWord_of_not_fits (s := s.setSp (pushAddress s)) w h]
  rfl

theorem popWord_of_fits {s : State} (rest : Word → State → HandlerResult) (h : wordFits s.cfg s.sp = true) :
    ∃ w, readWord s s.sp = .value w ∧ popWord s rest = rest w { s with sp := s.sp + 4 } := by
  obtain ⟨w, hw⟩ := readWord_of_fits h
  exact ⟨w, hw, by rw [popWord, hw]; rfl⟩

theorem popWord_of_not_fits {s : State} (rest : Word → State → HandlerResult) (h : wordFits s.cfg s.sp = false) :
    popWord s rest = .fault (.invalidAddress .global s.sp .word .read) s := by
  rw [popWord, readWord_of_not_fits h]
  rfl

theorem performJmp_of_fits {s : State} (h : s.pc.toNat + 4 ≤ s.cfg.textSize) :
    ∃ target, textReadWord s s.pc = .value target ∧ performJmp s = .proceed { s with pc := target } := by
  obtain ⟨t, ht⟩ := textReadWord_fits h
  exact ⟨t, ht, by rw [performJmp, operandWord, ht]; rfl⟩

theorem performJmp_of_not_fits {s : State} (h : s.cfg.textSize < s.pc.toNat + 4) :
    performJmp s = .fault (.invalidAddress .textLocal s.pc .word .read) s := by
  rw [performJmp, operandWord, textReadWord_of_lt h]
  rfl

theorem binaryOp_of_fits {s : State} (f : Word → Word → Checked Word) (h : wordFits s.cfg s.sp = true) :
    ∃ left, readWord s s.sp = .value left ∧
      binaryOp f s = (f left s.ax).andThen { s with sp := s.sp + 4 } fun v =>
        .proceed { s with sp := s.sp + 4, ax := v } := by
  obtain ⟨left, hl, hp⟩ := popWord_of_fits
    (fun left popped => (f left popped.ax).andThen popped fun v => .proceed (popped.setAx v)) h
  exact ⟨left, hl, hp⟩

theorem binaryOp_of_not_fits {s : State} (f : Word → Word → Checked Word) (h : wordFits s.cfg s.sp = false) :
    binaryOp f s = .fault (.invalidAddress .global s.sp .word .read) s :=
  popWord_of_not_fits _ h

/-- LEA's address as a number: `bp` plus four times the signed byte, mod 2^32. -/
theorem toNat_frameAddress (s : State) (off : Byte) :
    ((frameAddress s off).toNat : Int) = (s.bp.toNat + off.toInt * 4) % 2 ^ 32 := by
  have h : sext32 off = BitVec.ofInt 32 off.toInt := rfl
  unfold frameAddress
  rw [h]
  simp [BitVec.toNat_add, BitVec.toNat_mul, BitVec.toNat_ofInt]
  omega

/-- Adding a small number to an address that stays below 2^32. -/
theorem toNat_add_of_lt (a : Word) {k : Nat} (h : a.toNat + k < 2 ^ 32) :
    (a + BitVec.ofNat 32 k).toNat = a.toNat + k := by
  simp only [BitVec.toNat_add, BitVec.toNat_ofNat]
  omega

end Sys2Proof.Machine
end

