-- ==== Sys2Proof/Laws/PerInstr.lean ====
section
/-! SUPPORT. The family `RoundTrip`, one lemma per constructor of Instr: with every operand its format takes, and under every
injective opcode map, the instruction's bytes are as many as its format says and decode to it. -/

namespace Sys2Proof.Laws.RoundTrip

/-- The statement about one instruction, as a term of the instruction set. -/
def Statement (i : Instr) : Prop :=
  ∀ (m : OpcodeMap) (operand : Operand) (rest : List Byte), m.injective = true →
    (AsmInstr.mk i operand).wellFormed = true →
    (encode m ⟨i, operand⟩).length = i.format.length ∧ decode m (encode m ⟨i, operand⟩ ++ rest) = .instr ⟨i, operand⟩ rest

theorem of_wellFormed (i : Instr) : Statement i := fun m operand rest hm h =>
  ⟨by simpa [encode] using encodeOperand_length h, decode_encode hm h rest⟩

theorem imm : Statement .imm := of_wellFormed _
theorem lc : Statement .lc := of_wellFormed _
theorem li : Statement .li := of_wellFormed _
theorem sc : Statement .sc := of_wellFormed _
theorem si : Statement .si := of_wellFormed _
theorem push : Statement .push := of_wellFormed _
theorem jmp : Statement .jmp := of_wellFormed _
theorem jz : Statement .jz := of_wellFormed _
theorem jnz : Statement .jnz := of_wellFormed _
theorem call : Statement .call := of_wellFormed _
theorem ent : Statement .ent := of_wellFormed _
theorem adj : Statement .adj := of_wellFormed _
theorem lev : Statement .lev := of_wellFormed _
theorem lea : Statement .lea := of_wellFormed _
theorem or : Statement .or := of_wellFormed _
theorem xor : Statement .xor := of_wellFormed _
theorem and : Statement .and := of_wellFormed _
theorem eq : Statement .eq := of_wellFormed _
theorem ne : Statement .ne := of_wellFormed _
theorem lt : Statement .lt := of_wellFormed _
theorem gt : Statement .gt := of_wellFormed _
theorem le : Statement .le := of_wellFormed _
theorem ge : Statement .ge := of_wellFormed _
theorem shl : Statement .shl := of_wellFormed _
theorem shr : Statement .shr := of_wellFormed _
theorem add : Statement .add := of_wellFormed _
theorem sub : Statement .sub := of_wellFormed _
theorem mul : Statement .mul := of_wellFormed _
theorem div : Statement .div := of_wellFormed _
theorem mod : Statement .mod := of_wellFormed _
theorem open_ : Statement .open_ := of_wellFormed _
theorem read : Statement .read := of_wellFormed _
theorem clos : Statement .clos := of_wellFormed _
theorem prtf : Statement .prtf := of_wellFormed _
theorem malc : Statement .malc := of_wellFormed _
theorem mset : Statement .mset := of_wellFormed _
theorem mcmp : Statement .mcmp := of_wellFormed _
theorem exit : Statement .exit := of_wellFormed _

end Sys2Proof.Laws.RoundTrip
end

