-- ==== Sys2Proof/Laws/Step.lean ====
section
/-! SUPPORT. What a handler, `exec` and `step` can do, said once: an inversion lemma for each, which the invariants are derived
from. -/

namespace Sys2Proof.Machine

/-- What no handler touches, from `s` to `t`: the configuration, the lifecycle state and the termination record; and what a
handler's stores keep: the canonical form of memory and the bounds of the regions. -/
structure Carries (s t : State) : Prop where
  cfg : t.cfg = s.cfg
  lifecycle : t.lifecycle = s.lifecycle
  reason : t.reason = s.reason
  faultInfo : t.faultInfo = s.faultInfo
  diags : t.diags = s.diags
  mem : Memory.Kept s.cfg s.mem t.mem

theorem Carries.refl (s : State) : Carries s s := ⟨rfl, rfl, rfl, rfl, rfl, Memory.Kept.refl _ _⟩

theorem Carries.trans {s t u : State} (h : Carries s t) (k : Carries t u) : Carries s u :=
  ⟨k.cfg.trans h.cfg, k.lifecycle.trans h.lifecycle, k.reason.trans h.reason, k.faultInfo.trans h.faultInfo,
    k.diags.trans h.diags,
    ⟨fun hw => k.mem.1 (h.mem.1 hw), fun hb => by
      have h1 := h.mem.2 hb
      rw [← h.cfg] at h1 ⊢
      exact k.mem.2 h1⟩⟩

theorem Carries.setPc {s t : State} (h : Carries s t) (v : Word) : Carries s (t.setPc v) :=
  ⟨h.cfg, h.lifecycle, h.reason, h.faultInfo, h.diags, h.mem⟩

theorem Carries.setBp {s t : State} (h : Carries s t) (v : Word) : Carries s (t.setBp v) :=
  ⟨h.cfg, h.lifecycle, h.reason, h.faultInfo, h.diags, h.mem⟩

theorem Carries.setSp {s t : State} (h : Carries s t) (v : Word) : Carries s (t.setSp v) :=
  ⟨h.cfg, h.lifecycle, h.reason, h.faultInfo, h.diags, h.mem⟩

theorem Carries.setAx {s t : State} (h : Carries s t) (v : Word) : Carries s (t.setAx v) :=
  ⟨h.cfg, h.lifecycle, h.reason, h.faultInfo, h.diags, h.mem⟩

theorem Carries.writeWord {s t : State} (h : Carries s t) {a w : Word} {r : Word × State}
    (hw : writeWord t a w = .value r) : Carries s r.2 := by
  rcases writeWord_spec t a w with ⟨-, m, hm, hk, -⟩ | ⟨-, hr⟩
  · rw [hm] at hw
    injection hw with hw
    subst hw
    exact h.trans ⟨rfl, rfl, rfl, rfl, rfl, hk⟩
  · rw [hr] at hw
    cases hw

theorem Carries.writeByte {s t : State} (h : Carries s t) {a : Word} {b : Byte} {r : Byte × State}
    (hw : writeByte t a b = .value r) : Carries s r.2 := by
  rcases writeByte_spec t a b with ⟨-, m, hm, hk, -⟩ | ⟨-, hr⟩
  · rw [hm] at hw
    injection hw with hw
    subst hw
    exact h.trans ⟨rfl, rfl, rfl, rfl, rfl, hk⟩
  · rw [hr] at hw
    cases hw

/-- What every handler but EXIT's answers: `Continue` or `Fault`, with the lifecycle state and the record untouched. -/
def Tame (s : State) : HandlerResult → Prop
  | .proceed t => Carries s t
  | .fault d t => Carries s t ∧ d.kind ≠ .oversizedProgram
  | .exit _ => False

/-- A check or an access whose fault a step can raise. -/
def StepFault {α : Type} (r : Checked α) : Prop := ∀ d, r = .raise d → d.kind ≠ .oversizedProgram

theorem stepFault_readByte (s : State) (a : Word) : StepFault (readByte s a) := by
  intro d h
  rcases readByte_spec s a with ⟨_, _, -, h'⟩ | ⟨-, h'⟩ <;> rw [h'] at h <;> cases h
  simp [FaultDetail.kind]

theorem stepFault_readWord (s : State) (a : Word) : StepFault (readWord s a) := by
  intro d h
  rcases readWord_spec s a with ⟨_, _, -, h'⟩ | ⟨-, h'⟩ <;> rw [h'] at h <;> cases h
  simp [FaultDetail.kind]

theorem stepFault_writeByte (s : State) (a : Word) (b : Byte) : StepFault (writeByte s a b) := by
  intro d h
  rcases writeByte_spec s a b with ⟨-, _, h', -⟩ | ⟨-, h'⟩ <;> rw [h'] at h <;> cases h
  simp [FaultDetail.kind]

theorem stepFault_writeWord (s : State) (a w : Word) : StepFault (writeWord s a w) := by
  intro d h
  rcases writeWord_spec s a w with ⟨-, _, h', -⟩ | ⟨-, h'⟩ <;> rw [h'] at h <;> cases h
  simp [FaultDetail.kind]

theorem stepFault_textReadByte (s : State) (off : Word) : StepFault (textReadByte s off) := by
  intro d h
  unfold textReadByte at h
  split at h <;> cases h
  simp [FaultDetail.kind]

theorem stepFault_textReadWord (s : State) (off : Word) : StepFault (textReadWord s off) := by
  intro d h
  unfold textReadWord at h
  split at h <;> cases h
  simp [FaultDetail.kind]

theorem stepFault_value {α : Type} (v : α) : StepFault (.value v) := by
  intro d h
  cases h

theorem stepFault_checkedShift (v count : Word) : StepFault (checkedShift v count) := by
  intro d h
  unfold checkedShift at h
  split at h <;> cases h
  simp [FaultDetail.kind]

theorem stepFault_checkedDivision (v divisor : Word) : StepFault (checkedDivision v divisor) := by
  intro d h
  unfold checkedDivision at h
  split at h <;> cases h
  simp [FaultDetail.kind]

theorem Tame.andThen {α : Type} {s t : State} {r : Checked α} {rest : α → HandlerResult} (ht : Carries s t)
    (hr : StepFault r) (h : ∀ v, r = .value v → Tame s (rest v)) : Tame s (r.andThen t rest) := by
  cases hv : r with
  | value v => exact h v hv
  | raise d => exact ⟨ht, hr d hv⟩

theorem Tame.pushWord {s t : State} {w : Word} {rest : State → HandlerResult} (ht : Carries s t)
    (h : ∀ u, Carries s u → Tame s (rest u)) : Tame s (pushWord t w rest) :=
  .andThen (ht.setSp _) (stepFault_writeWord _ _ _) fun _ hv => h _ ((ht.setSp _).writeWord hv)

theorem Tame.performJmp {s t : State} (ht : Carries s t) : Tame s (performJmp t) :=
  .andThen ht (stepFault_textReadWord _ _) fun _ _ => ht.setPc _

theorem Tame.skipWord {s t : State} (ht : Carries s t) : Tame s (.proceed (skipWord t)) := ht.setPc _

theorem Tame.binaryOp {f : Word → Word → Checked Word} (hf : ∀ l r, StepFault (f l r)) (s : State) :
    Tame s (binaryOp f s) :=
  .andThen (.refl s) (stepFault_readWord _ _) fun _ _ =>
    .andThen ((Carries.refl s).setSp _) (hf _ _) fun _ _ => ((Carries.refl s).setSp _).setAx _

theorem Tame.reserved (i : Instr) (s : State) : Tame s (raiseReserved i s) :=
  ⟨.refl s, by simp [FaultDetail.kind]⟩

/-- Every instruction but EXIT runs a tame handler. -/
theorem exec_tame (i : Instr) (hi : i ≠ .exit) (s : State) :
    ∃ r, exec i s = concludeHandler s r ∧ Tame s r := by
  have h0 := Carries.refl s
  have hv : ∀ (g : Word → Word → Word) l r, StepFault (Checked.value (g l r)) := fun g l r => stepFault_value _
  cases i with
  | imm => exact ⟨_, rfl, .andThen h0 (stepFault_textReadWord _ _) fun _ _ => (h0.setAx _).setPc _⟩
  | lc => exact ⟨_, rfl, .andThen h0 (stepFault_readByte _ _) fun _ _ => h0.setAx _⟩
  | li => exact ⟨_, rfl, .andThen h0 (stepFault_readWord _ _) fun _ _ => h0.setAx _⟩
  | sc => exact ⟨_, rfl, .andThen h0 (stepFault_writeByte _ _ _) fun _ hr => (h0.writeByte hr).setAx _⟩
  | si => exact ⟨_, rfl, .andThen h0 (stepFault_writeWord _ _ _) fun _ hr => (h0.writeWord hr).setAx _⟩
  | push => exact ⟨_, rfl, .pushWord h0 fun _ hu => hu⟩
  | jmp => exact ⟨_, rfl, .performJmp h0⟩
  | jz =>
    refine ⟨_, rfl, ?_⟩
    split
    exacts [.performJmp h0, .skipWord h0]
  | jnz =>
    refine ⟨_, rfl, ?_⟩
    split
    exacts [.skipWord h0, .performJmp h0]
  | call => exact ⟨_, rfl, .pushWord h0 fun _ hu => .performJmp hu⟩
  | ent =>
    exact ⟨_, rfl, .pushWord h0 fun _ hu => .andThen (hu.setBp _) (stepFault_textReadWord _ _) fun _ _ =>
      .skipWord ((hu.setBp _).setSp _)⟩
  | adj => exact ⟨_, rfl, .andThen h0 (stepFault_textReadWord _ _) fun _ _ => .skipWord (h0.setSp _)⟩
  | lev =>
    exact ⟨_, rfl, .andThen (h0.setSp _) (stepFault_readWord _ _) fun _ _ =>
      .andThen (((h0.setSp _).setBp _).setSp _) (stepFault_readWord _ _) fun _ _ =>
        ((((h0.setSp _).setBp _).setSp _).setPc _).setSp _⟩
  | lea =>
    exact ⟨_, rfl, .andThen h0 (stepFault_textReadByte _ _) fun _ _ =>
      .andThen (h0.setPc _) (stepFault_readWord _ _) fun _ _ => (h0.setPc _).setAx _⟩
  | or => exact ⟨_, rfl, .binaryOp (hv _) s⟩
  | xor => exact ⟨_, rfl, .binaryOp (hv _) s⟩
  | and => exact ⟨_, rfl, .binaryOp (hv _) s⟩
  | eq => exact ⟨_, rfl, .binaryOp (fun _ _ => stepFault_value _) s⟩
  | ne => exact ⟨_, rfl, .binaryOp (fun _ _ => stepFault_value _) s⟩
  | lt => exact ⟨_, rfl, .binaryOp (fun _ _ => stepFault_value _) s⟩
  | gt => exact ⟨_, rfl, .binaryOp (fun _ _ => stepFault_value _) s⟩
  | le => exact ⟨_, rfl, .binaryOp (fun _ _ => stepFault_value _) s⟩
  | ge => exact ⟨_, rfl, .binaryOp (fun _ _ => stepFault_value _) s⟩
  | shl => exact ⟨_, rfl, .binaryOp (fun _ _ => stepFault_checkedShift _ _) s⟩
  | shr => exact ⟨_, rfl, .binaryOp (fun _ _ => stepFault_checkedShift _ _) s⟩
  | add => exact ⟨_, rfl, .binaryOp (hv _) s⟩
  | sub => exact ⟨_, rfl, .binaryOp (hv _) s⟩
  | mul => exact ⟨_, rfl, .binaryOp (hv _) s⟩
  | div => exact ⟨_, rfl, .binaryOp (fun _ _ => stepFault_checkedDivision _ _) s⟩
  | mod => exact ⟨_, rfl, .binaryOp (fun _ _ => stepFault_checkedDivision _ _) s⟩
  | open_ => exact ⟨_, rfl, .reserved _ s⟩
  | read => exact ⟨_, rfl, .reserved _ s⟩
  | clos => exact ⟨_, rfl, .reserved _ s⟩
  | prtf => exact ⟨_, rfl, .reserved _ s⟩
  | malc => exact ⟨_, rfl, .reserved _ s⟩
  | mset => exact ⟨_, rfl, .reserved _ s⟩
  | mcmp => exact ⟨_, rfl, .reserved _ s⟩
  | exit => exact absurd rfl hi

/-- All that `exec` can answer (R83): the handler goes on, or faults with what it did so far kept, or is EXIT's. -/
theorem exec_cases (i : Instr) (s : State) :
    (∃ t, exec i s = .next t ∧ Carries s t) ∨
      (∃ d t, exec i s = .next (takeFault (some (s.pc - 1)) d t) ∧ Carries s t ∧ d.kind ≠ .oversizedProgram) ∨
      (i = .exit ∧ exec i s = .next (takeExit s)) := by
  by_cases hi : i = .exit
  · subst hi
    exact .inr (.inr ⟨rfl, rfl⟩)
  · obtain ⟨r, hr, ht⟩ := exec_tame i hi s
    cases r with
    | proceed t => exact .inl ⟨t, hr, ht⟩
    | fault d t => exact .inr (.inl ⟨d, t, hr, ht⟩)
    | exit t => exact absurd ht id

/-- All that a step of a running block can answer: it goes on, or halts on a fault with the record of R199, or fetches EXIT. -/
theorem step_running_cases {s : State} (hs : s.lifecycle = .running) :
    (∃ t, step s = .next t ∧ Carries s t) ∨
      (∃ d t, step s = .next (takeFault (some s.pc) d t) ∧ Carries s t ∧ d.kind ≠ .oversizedProgram) ∨
      (fetchOpcode s = .value (s.cfg.opcodeMap.byteOf .exit) ∧ step s = .next (takeExit (advancePc s))) := by
  have ha : Carries s (advancePc s) := (Carries.refl s).setPc _
  cases hf : fetchOpcode s with
  | raise d =>
    exact .inr (.inl ⟨d, s, by simp [step, hs, hf], .refl s, stepFault_textReadByte _ _ d hf⟩)
  | value op =>
    cases hd : decodeOpcode s.cfg.opcodeMap op with
    | none =>
      exact .inr (.inl ⟨.unknownOpcode op, advancePc s, by simp [step, hs, hf, hd], ha, by simp [FaultDetail.kind]⟩)
    | some i =>
      have hstep : step s = exec i (advancePc s) := by simp [step, hs, hf, hd]
      rcases exec_cases i (advancePc s) with ⟨t, ht, hc⟩ | ⟨d, t, ht, hc, hk⟩ | ⟨rfl, ht⟩
      · exact .inl ⟨t, hstep.trans ht, ha.trans hc⟩
      · refine .inr (.inl ⟨d, t, ?_, ha.trans hc, hk⟩)
        rw [hstep, ht]
        simp
      · exact .inr (.inr ⟨by rw [byteOf_of_decodeOpcode hd], hstep.trans ht⟩)

theorem step_of_not_running {s : State} (hs : s.lifecycle ≠ .running) : step s = .next s := by
  unfold step
  split <;> simp_all

/-- Every step answers a next state. -/
theorem step_next (s : State) : ∃ t, step s = .next t := by
  by_cases hs : s.lifecycle = .running
  · rcases step_running_cases hs with ⟨t, h, -⟩ | ⟨d, t, h, -⟩ | ⟨-, h⟩ <;> exact ⟨_, h⟩
  · exact ⟨s, step_of_not_running hs⟩

end Sys2Proof.Machine
end

