-- ==== Sys2Proof/Machine/Listing.lean ====
section
/-! DEFINITION. The text of a listing (spec 30_encoding.md R70): from characters to the items that `assemble` takes. -/

namespace Sys2Proof

/-- The mnemonic as a listing writes it (R64, R70). -/
def Instr.mnemonic : Instr → String
  | .imm => "IMM"
  | .lc => "LC"
  | .li => "LI"
  | .sc => "SC"
  | .si => "SI"
  | .push => "PUSH"
  | .jmp => "JMP"
  | .jz => "JZ"
  | .jnz => "JNZ"
  | .call => "CALL"
  | .ent => "ENT"
  | .adj => "ADJ"
  | .lev => "LEV"
  | .lea => "LEA"
  | .or => "OR"
  | .xor => "XOR"
  | .and => "AND"
  | .eq => "EQ"
  | .ne => "NE"
  | .lt => "LT"
  | .gt => "GT"
  | .le => "LE"
  | .ge => "GE"
  | .shl => "SHL"
  | .shr => "SHR"
  | .add => "ADD"
  | .sub => "SUB"
  | .mul => "MUL"
  | .div => "DIV"
  | .mod => "MOD"
  | .open_ => "OPEN"
  | .read => "READ"
  | .clos => "CLOS"
  | .prtf => "PRTF"
  | .malc => "MALC"
  | .mset => "MSET"
  | .mcmp => "MCMP"
  | .exit => "EXIT"

/-- The pieces of a text between the characters that `sep` picks out. -/
def pieces (sep : Char → Bool) : List Char → List (List Char)
  | [] => [[]]
  | c :: rest =>
    if sep c then [] :: pieces sep rest
    else
      match pieces sep rest with
      | [] => [[c]]
      | piece :: more => (c :: piece) :: more

/-- The statements of a listing, each as its words: one or several a line, separated by commas, with `;` starting a comment. -/
def statements (text : List Char) : List (List (List Char)) :=
  let lines := (pieces (· == '\n') text).map fun line => line.takeWhile (· != ';')
  (lines.flatMap (pieces (· == ','))).map fun st =>
    (pieces (fun c => c == ' ' || c == '\t' || c == '\r') st).filter (· != [])

/-- The value of a digit, of base 16 at most. -/
def digitValue (c : Char) : Option Nat :=
  if 48 ≤ c.toNat ∧ c.toNat ≤ 57 then some (c.toNat - 48)
  else if 65 ≤ c.toNat ∧ c.toNat ≤ 70 then some (c.toNat - 55)
  else if 97 ≤ c.toNat ∧ c.toNat ≤ 102 then some (c.toNat - 87)
  else none

/-- A numeral's value, `acc` being the value of the digits before. -/
def numeral (base acc : Nat) : List Char → Option Nat
  | [] => some acc
  | c :: rest =>
    match digitValue c with
    | some d => if d < base then numeral base (acc * base + d) rest else none
    | none => none

/-- A number in decimal, or in hexadecimal after `0x`. -/
def parseNumber : List Char → Option Nat
  | [] => none
  | '0' :: 'x' :: c :: rest => numeral 16 0 (c :: rest)
  | c :: rest => numeral 10 0 (c :: rest)

/-- A decimal number with an optional minus sign: LEA's operand. -/
def parseOffset : List Char → Option Int
  | [] => none
  | '-' :: c :: rest => (numeral 10 0 (c :: rest)).map fun n => -(n : Int)
  | c :: rest => (numeral 10 0 (c :: rest)).map fun n => (n : Int)

/-- A word that can name a label: it starts with no digit and no minus sign, and holds no colon (log entry 16). -/
def isLabelName : List Char → Bool
  | [] => false
  | c :: rest => !(48 ≤ c.toNat && c.toNat ≤ 57) && c != '-' && (c :: rest).all (· != ':')

/-- The label that a word `name:` defines. -/
def labelDefined (w : List Char) : Option (List Char) :=
  if w.getLast? == some ':' && isLabelName w.dropLast then some w.dropLast else none

/-- A mnemonic or `.byte`, with its operand words. The ranges of the operands are checked when the item is assembled. -/
def parseInstr (w : List Char) (operands : List (List Char)) : Option AsmItem :=
  if w == ".byte".toList then
    match operands with
    | [v] => (parseNumber v).bind fun n => if n < 256 then some (.byte (BitVec.ofNat 8 n)) else none
    | _ => none
  else
    match Instr.all.find? fun i => i.mnemonic.toList == w with
    | none => none
    | some i =>
      match i.format, operands with
      | .op, [] => some (.instr ⟨i, .absent⟩)
      | .opB, [v] => (parseOffset v).map fun off => .instr ⟨i, .offset off⟩
      | .opW, [v] =>
        match parseNumber v with
        | some n => some (.instr ⟨i, .word n⟩)
        | none => if isLabelName v then some (.toLabel i v) else none
      | _, _ => none

/-- One statement: labels, then at most one instruction. -/
def parseStatement : List (List Char) → Option (List AsmItem)
  | [] => some []
  | w :: rest =>
    match labelDefined w with
    | some name => (parseStatement rest).map fun items => .label name :: items
    | none => (parseInstr w rest).map fun item => [item]

/-- All statements of a listing. -/
def parseStatements : List (List (List Char)) → Option (List AsmItem)
  | [] => some []
  | st :: rest =>
    match parseStatement st, parseStatements rest with
    | some items, some more => some (items ++ more)
    | _, _ => none

/-- The instruction stream that the text of a listing stands for, or none where the text is no listing. -/
def assembleText (m : OpcodeMap) (text : String) : Option (List Byte) :=
  (parseStatements (statements text.toList)).bind (assemble m)

end Sys2Proof
end

