-- ==== Sys2Proof/Tests/Slice0.lean ====
section
/-! SUPPORT. Tests with expected results from spec 95_test_vectors.md or worked from a rule by hand (each docstring says which),
the smoke test of the well-formedness checks, and for every statement with hypotheses a witness that meets them. -/

namespace Sys2Proof.Tests

open Sys2Proof.Machine

/-- The block of a configuration, running, with registers as after reset and `text` loaded. -/
def runningOn (c : Config) (text : List Byte) : State :=
  { State.resetOf c with lifecycle := .running, mem := ⟨[], [], setCells [] 0 text⟩ }

/-- The same for the reference configuration. -/
def running (text : List Byte) : State := runningOn referenceConfig text

/-- The same with the text placed from offset `at_` on, where `pc` is. -/
def runningAt (at_ : Nat) (text : List Byte) : State :=
  { State.reset with lifecycle := .running, pc := BitVec.ofNat 32 at_, mem := ⟨[], [], setCells [] at_ text⟩ }

/-- `bytes` in the stack region from `o` on. -/
def withStack (s : State) (o : Nat) (bytes : List Byte) : State :=
  { s with mem := { s.mem with stack := setCells s.mem.stack o bytes } }

/-- `bytes` in the data region from `o` on. -/
def withData (s : State) (o : Nat) (bytes : List Byte) : State :=
  { s with mem := { s.mem with data := setCells s.mem.data o bytes } }

/-- The state after one step. -/
def after (s : State) : State :=
  match step s with
  | .next t => t
  | .fault _ => s
  | .refused _ => s

/-- The top word of the stack is `left`, the accumulator `right`, and the instruction at `pc` is one byte. -/
def operator (op : Byte) (left right : Word) : State :=
  { withStack (running [op]) 0x3FFFC [byteOfWord left 0, byteOfWord left 1, byteOfWord left 2, byteOfWord left 3] with
    sp := 0x3FFFC, ax := right }

/-- Three regions of 16 bytes: 95_test_vectors.md, small configuration. -/
def tiny : Config := { referenceConfig with stackSize := 16, dataSize := 16, textSize := 16 }

/-- The same with `PUSH_STRIDE = 5`. -/
def tinyFive : Config := { tiny with pushStride := .five }

/-- The fault taken by a step: its kind, its `insn_pc` and its fields. -/
def faultOf (s : State) : Reason × Option FaultInfo := ((after s).reason, (after s).faultInfo)

/-- The record of a step-time fault. -/
def faultAt (pc : Word) (d : FaultDetail) : Reason × Option FaultInfo := (.fault d.kind, some ⟨some pc, d⟩)

/-! Well-formedness (R4, R6, R70): each check refuses an ill-formed term, and accepts the boundary. -/

theorem test_wellFormed_operand_kind :
    (AsmInstr.mk .lc (.word 0)).wellFormed = false ∧ (AsmInstr.mk .imm .absent).wellFormed = false ∧
      (AsmInstr.mk .lea (.word 1)).wellFormed = false ∧ (AsmInstr.mk .jmp (.offset 1)).wellFormed = false ∧
      (AsmInstr.mk .lc .absent).wellFormed = true := by decide

theorem test_wellFormed_offset_range :
    (AsmInstr.mk .lea (.offset 128)).wellFormed = false ∧ (AsmInstr.mk .lea (.offset (-129))).wellFormed = false ∧
      (AsmInstr.mk .lea (.offset 127)).wellFormed = true ∧
      (AsmInstr.mk .lea (.offset (-128))).wellFormed = true := by decide

theorem test_wellFormed_word_range :
    (AsmInstr.mk .imm (.word 0x100000000)).wellFormed = false ∧
      (AsmInstr.mk .imm (.word 0xFFFFFFFF)).wellFormed = true := by decide

theorem test_config_checks :
    (Config.sizesLegal { tiny with stackSize := 0 }) = false ∧ (Config.sizesLegal { tiny with dataSize := 0 }) = false ∧
      (Config.sizesLegal { tiny with textSize := 0 }) = false ∧
      (Config.sizesLegal { tiny with textSize := 0xFFFFFFFF - 38 }) = false ∧
      (Config.sizesLegal { tiny with textSize := 0xFFFFFFFF - 39 }) = true ∧
      (Config.legal { tiny with opcodeMap := { OpcodeMap.reference with lc := 0x00 } }) = false ∧
      Config.legal tiny = true ∧ Config.legal referenceConfig = true := by decide

/-! Decoding: words written out from the encodings of 30_encoding.md section 3 and 95_test_vectors.md section 2.2. -/

theorem test_decode_load_store :
    decode .reference [0x00, 0x12, 0x34, 0x56, 0x78] = .instr ⟨.imm, .word 0x12345678⟩ [] ∧
      decode .reference [0x01] = .instr ⟨.lc, .absent⟩ [] ∧ decode .reference [0x02] = .instr ⟨.li, .absent⟩ [] ∧
      decode .reference [0x03] = .instr ⟨.sc, .absent⟩ [] ∧ decode .reference [0x04] = .instr ⟨.si, .absent⟩ [] ∧
      decode .reference [0x05] = .instr ⟨.push, .absent⟩ [] := by decide

theorem test_decode_control :
    decode .reference [0x06, 0x00, 0x00, 0x00, 0x06] = .instr ⟨.jmp, .word 6⟩ [] ∧
      decode .reference [0x07, 0x00, 0x00, 0x00, 0x1E] = .instr ⟨.jz, .word 30⟩ [] ∧
      decode .reference [0x08, 0x00, 0x00, 0x00, 0x40] = .instr ⟨.jnz, .word 0x40⟩ [] ∧
      decode .reference [0x09, 0x00, 0x00, 0x00, 0x0C] = .instr ⟨.call, .word 12⟩ [] ∧
      decode .reference [0x0A, 0x00, 0x00, 0x00, 0x08] = .instr ⟨.ent, .word 8⟩ [] ∧
      decode .reference [0x0B, 0xFF, 0xFF, 0xFF, 0xF8] = .instr ⟨.adj, .word 0xFFFFFFF8⟩ [] ∧
      decode .reference [0x0C] = .instr ⟨.lev, .absent⟩ [] ∧
      decode .reference [0x0D, 0xFF] = .instr ⟨.lea, .offset (-1)⟩ [] ∧
      decode .reference [0x0D, 0x80] = .instr ⟨.lea, .offset (-128)⟩ [] := by decide

theorem test_decode_binary :
    decode .reference [0x0E] = .instr ⟨.or, .absent⟩ [] ∧ decode .reference [0x0F] = .instr ⟨.xor, .absent⟩ [] ∧
      decode .reference [0x10] = .instr ⟨.and, .absent⟩ [] ∧ decode .reference [0x11] = .instr ⟨.eq, .absent⟩ [] ∧
      decode .reference [0x12] = .instr ⟨.ne, .absent⟩ [] ∧ decode .reference [0x13] = .instr ⟨.lt, .absent⟩ [] ∧
      decode .reference [0x14] = .instr ⟨.gt, .absent⟩ [] ∧ decode .reference [0x15] = .instr ⟨.le, .absent⟩ [] ∧
      decode .reference [0x16] = .instr ⟨.ge, .absent⟩ [] ∧ decode .reference [0x17] = .instr ⟨.shl, .absent⟩ [] ∧
      decode .reference [0x18] = .instr ⟨.shr, .absent⟩ [] ∧ decode .reference [0x19] = .instr ⟨.add, .absent⟩ [] ∧
      decode .reference [0x1A] = .instr ⟨.sub, .absent⟩ [] ∧ decode .reference [0x1B] = .instr ⟨.mul, .absent⟩ [] ∧
      decode .reference [0x1C] = .instr ⟨.div, .absent⟩ [] ∧
      decode .reference [0x1D] = .instr ⟨.mod, .absent⟩ [] := by decide

theorem test_decode_hostcall :
    decode .reference [0x1E] = .instr ⟨.open_, .absent⟩ [] ∧ decode .reference [0x1F] = .instr ⟨.read, .absent⟩ [] ∧
      decode .reference [0x20] = .instr ⟨.clos, .absent⟩ [] ∧ decode .reference [0x21] = .instr ⟨.prtf, .absent⟩ [] ∧
      decode .reference [0x22] = .instr ⟨.malc, .absent⟩ [] ∧ decode .reference [0x23] = .instr ⟨.mset, .absent⟩ [] ∧
      decode .reference [0x24] = .instr ⟨.mcmp, .absent⟩ [] ∧
      decode .reference [0x25] = .instr ⟨.exit, .absent⟩ [] := by decide

/-- 95_test_vectors.md section 2.2: unknown bytes, and an operand cut short. -/
theorem test_decode_rejects :
    decode .reference [0x26] = .rejected (.unknownOpcode 0x26) ∧
      decode .reference [0x80] = .rejected (.unknownOpcode 0x80) ∧
      decode .reference [0xFF] = .rejected (.unknownOpcode 0xFF) ∧
      decode .reference [0x00, 0x00, 0x00, 0x00] = .rejected (.truncatedOperand .imm) ∧
      decode .reference [] = .rejected .noBytes := by decide

/-- opcode_table.json: the second byte of a word is its bits 15..8, so IMM 5 is 0x0500000000. -/
theorem test_decodeTableWord :
    decodeTableWord 40 0x0500000000 = some .imm ∧ decodeTableWord 16 0xFF0D = some .lea ∧
      decodeTableWord 8 0x25 = some .exit ∧ decodeTableWord 8 0x26 = none := by decide

theorem test_withFetchWord :
    (after (State.reset.withFetchWord 40 0x0500000000)).ax = 5 ∧
      (after (State.reset.withFetchWord 8 0x25)).reason = .exit := by decide

/-- 95_test_vectors.md, listings P1 and P3 (its first lines), as text. -/
theorem test_assembleText :
    assembleText .reference "IMM 5, PUSH, IMM 3, ADD\nEXIT ; the sum" =
        some [0x00, 0, 0, 0, 5, 0x05, 0x00, 0, 0, 0, 3, 0x19, 0x25] ∧
      assembleText .reference "IMM 7\nCALL f\n.byte 0x00\nEXIT\nf: ENT 8\nIMM 0x2A, SI\nLEA -2, LEV" =
        some ([0x00, 0, 0, 0, 7, 0x09, 0, 0, 0, 0x0C, 0x00, 0x25, 0x0A, 0, 0, 0, 8] ++
          [0x00, 0, 0, 0, 0x2A, 0x04, 0x0D, 0xFE, 0x0C]) := by decide

/-- R70: what is no listing: an operand out of range, one too many, an unknown mnemonic, an undefined label. -/
theorem test_assembleText_rejects :
    assembleText .reference "LEA 128" = none ∧ assembleText .reference "LC 1" = none ∧
      assembleText .reference "NOP" = none ∧ assembleText .reference "JMP nowhere" = none ∧
      assembleText .reference ".byte 256" = none := by decide

/-! Memory: 95_test_vectors.md section 2.1. -/

theorem test_translate :
    translateAddr referenceConfig 0x3FFFC = some (.stack, 0x3FFFC) ∧
      translateAddr referenceConfig 0x40000 = some (.data, 0) ∧
      translateAddr referenceConfig 0x80005 = some (.text, 5) ∧ translateAddr referenceConfig 0xC0000 = none := by
  decide

theorem test_word_boundaries :
    readWord State.reset 0x3FFFC = .value 0 ∧
      readWord State.reset 0x3FFFD = .raise (.invalidAddress .global 0x3FFFD .word .read) ∧
      readWord State.reset 0xBFFFD = .raise (.invalidAddress .global 0xBFFFD .word .read) ∧
      readWord State.reset 0xFFFFFFFE = .raise (.invalidAddress .global 0xFFFFFFFE .word .read) ∧
      textReadWord State.reset 0x3FFFD = .raise (.invalidAddress .textLocal 0x3FFFD .word .read) := by decide

/-- A word stored at 0x100 reads back byte by byte, and writing what an unlisted byte reads as removes the cells. -/
theorem test_byte_order_and_canonical_form :
    setCellWord [] 0x100 0x11223344 = [(0x100, 0x11), (0x101, 0x22), (0x102, 0x33), (0x103, 0x44)] ∧
      cellWordAt (setCell (setCellWord [] 0x100 0x11223344) 0x103 0xFF) 0x100 = 0x112233FF ∧
      setCellWord (setCellWord [] 0x100 0x11223344) 0x100 0 = [] := by decide

/-! One step of each instruction: 95_test_vectors.md sections 2.4 to 2.7. -/

theorem test_imm : (after (running [0x00, 0xFF, 0xFF, 0xFF, 0xFF])).ax = 0xFFFFFFFF ∧
    (after (running [0x00, 0xFF, 0xFF, 0xFF, 0xFF])).pc = 5 := by decide

theorem test_imm_at_the_end : faultOf (runningAt 0x3FFFC [0x00]) =
      faultAt 0x3FFFC (.invalidAddress .textLocal 0x3FFFD .word .read) ∧
    (after (runningAt 0x3FFFC [0x00])).pc = 0x3FFFD := by decide

theorem test_lc : (after { withData (running [0x01]) 0 [0xFE] with ax := 0x40000 }).ax = 0xFE := by decide

theorem test_lc_beyond_end : faultOf { running [0x01] with ax := 0xC0000 } =
    faultAt 0 (.invalidAddress .global 0xC0000 .byte .read) := by decide

theorem test_li : (after { running [0x02, 0x25] with ax := 0x80000 }).ax = 0x02250000 := by decide

theorem test_li_straddles : faultOf { running [0x02] with ax := 0x3FFFE } =
    faultAt 0 (.invalidAddress .global 0x3FFFE .word .read) := by decide

theorem test_sc : (after (operator 0x03 0x12345678 0x12345678)).mem.stack =
      [(0x3FFFC, 0x78), (0x3FFFD, 0x34), (0x3FFFE, 0x56), (0x3FFFF, 0x78)] ∧
    (after (operator 0x03 0x12345678 0x12345678)).ax = 0x78 ∧
    (after (operator 0x03 0x12345678 0x12345678)).sp = 0x3FFFC := by decide

theorem test_sc_at_reset_sp : (after { running [0x03] with ax := 0x1FF }).mem.data = [(0, 0xFF)] ∧
    (after { running [0x03] with ax := 0x1FF }).ax = 0xFF := by decide

theorem test_si : (after { running [0x04] with ax := 0xDEADBEEF }).mem.data =
      [(0, 0xDE), (1, 0xAD), (2, 0xBE), (3, 0xEF)] ∧
    (after { running [0x04] with ax := 0xDEADBEEF }).sp = 0x40000 := by decide

theorem test_si_replaces_the_top : (after (operator 0x04 3 2)).mem.stack = [(0x3FFFF, 2)] := by decide

theorem test_push : (after { running [0x05] with ax := 5 }).sp = 0x3FFFC ∧
    (after { running [0x05] with ax := 5 }).mem.stack = [(0x3FFFF, 5)] := by decide

theorem test_push_below_zero : faultOf { running [0x05] with sp := 2 } =
      faultAt 0 (.invalidAddress .global 0xFFFFFFFE .word .write) ∧
    (after { running [0x05] with sp := 2 }).sp = 0xFFFFFFFE := by decide

theorem test_jmp : (after (runningAt 25 [0x06, 0, 0, 0, 6])).pc = 6 := by decide

theorem test_jz : (after (runningAt 12 [0x07, 0, 0, 0, 0x1E])).pc = 30 ∧
    (after { runningAt 12 [0x07, 0, 0, 0, 0x1E] with ax := 0x80000000 }).pc = 17 := by decide

theorem test_jz_not_taken_reads_no_operand :
    (after { runningAt 0x3FFFF [0x07] with ax := 1 }).pc = 0x40004 ∧
      (after { runningAt 0x3FFFF [0x07] with ax := 1 }).lifecycle = .running ∧
      faultOf (runningAt 0x3FFFF [0x07]) =
        faultAt 0x3FFFF (.invalidAddress .textLocal 0x40000 .word .read) := by decide

theorem test_jnz : (after (running [0x08, 0, 0, 0, 0x40])).pc = 0x40 ∧
    (after { running [0x08, 0, 0, 0, 0x40] with ax := 1 }).pc = 5 := by decide

theorem test_call : (after (runningAt 5 [0x09, 0, 0, 0, 0x0C])).sp = 0x3FFFC ∧
    (after (runningAt 5 [0x09, 0, 0, 0, 0x0C])).mem.stack = [(0x3FFFF, 6)] ∧
    (after (runningAt 5 [0x09, 0, 0, 0, 0x0C])).pc = 12 := by decide

theorem test_call_store_before_operand :
    faultOf { runningAt 0x3FFFC [0x09] with sp := 0 } =
      faultAt 0x3FFFC (.invalidAddress .global 0xFFFFFFFC .word .write) := by decide

theorem test_ent : (after { runningAt 12 [0x0A, 0, 0, 0, 8] with sp := 0x3FFFC }).mem.stack = [(0x3FFF9, 4)] ∧
    (after { runningAt 12 [0x0A, 0, 0, 0, 8] with sp := 0x3FFFC }).bp = 0x3FFF8 ∧
    (after { runningAt 12 [0x0A, 0, 0, 0, 8] with sp := 0x3FFFC }).sp = 0x3FFF0 ∧
    (after { runningAt 12 [0x0A, 0, 0, 0, 8] with sp := 0x3FFFC }).pc = 17 := by decide

theorem test_adj : (after { running [0x0B, 0, 0, 0, 8] with sp := 0x3FFF0 }).sp = 0x3FFF8 ∧
    (after (running [0x0B, 0xFF, 0xFF, 0xFF, 0xF8])).sp = 0x3FFF8 := by decide

theorem test_lev :
    (after { withStack (running [0x0C]) 0x3FFF8 [0, 4, 0, 0, 0, 0, 0, 6] with bp := 0x3FFF8 }).bp = 0x40000 ∧
      (after { withStack (running [0x0C]) 0x3FFF8 [0, 4, 0, 0, 0, 0, 0, 6] with bp := 0x3FFF8 }).pc = 6 ∧
      (after { withStack (running [0x0C]) 0x3FFF8 [0, 4, 0, 0, 0, 0, 0, 6] with bp := 0x3FFF8 }).sp = 0x40000 := by
  decide

theorem test_lev_second_read_faults :
    faultOf { running [0x0C] with bp := 0xBFFFC } = faultAt 0 (.invalidAddress .global 0xC0000 .word .read) ∧
      (after { running [0x0C] with bp := 0xBFFFC }).sp = 0xC0000 ∧
      (after { running [0x0C] with bp := 0xBFFFC }).bp = 0 := by decide

theorem test_lea : (after { withStack (running [0x0D, 0xFE]) 0x3FFF0 [0, 0, 0, 0x2A] with bp := 0x3FFF8 }).ax = 0x2A ∧
    (after { withStack (running [0x0D, 0xFE]) 0x3FFF0 [0, 0, 0, 0x2A] with bp := 0x3FFF8 }).pc = 2 := by decide

theorem test_lea_wraps_below_zero :
    faultOf { running [0x0D, 0xFF] with bp := 0 } = faultAt 0 (.invalidAddress .global 0xFFFFFFFC .word .read) ∧
      (after { running [0x0D, 0xFF] with bp := 0 }).pc = 2 := by decide

theorem test_bitwise : (after (operator 0x0E 0xF0F0 0x0F0F)).ax = 0xFFFF ∧
    (after (operator 0x0F 0xFF00FF00 0x0FF00FF0)).ax = 0xF0F0F0F0 ∧
    (after (operator 0x10 0x12345678 0xFFFF)).ax = 0x5678 ∧ (after (operator 0x10 1 2)).sp = 0x40000 := by decide

theorem test_equality : (after (operator 0x11 5 5)).ax = 1 ∧ (after (operator 0x11 5 6)).ax = 0 ∧
    (after (operator 0x12 5 6)).ax = 1 ∧ (after (operator 0x12 0xFFFFFFFF 0xFFFFFFFF)).ax = 0 := by decide

theorem test_ordering_is_unsigned : (after (operator 0x13 0xFFFFFFFF 1)).ax = 0 ∧
    (after (operator 0x13 1 0xFFFFFFFF)).ax = 1 ∧ (after (operator 0x14 0x80000000 0x7FFFFFFF)).ax = 1 ∧
    (after (operator 0x14 3 5)).ax = 0 := by decide

theorem test_ordering_of_equals : (after (operator 0x15 5 5)).ax = 1 ∧ (after (operator 0x15 6 5)).ax = 0 ∧
    (after (operator 0x16 5 5)).ax = 1 ∧ (after (operator 0x16 4 5)).ax = 0 := by decide

theorem test_shifts : (after (operator 0x17 1 31)).ax = 0x80000000 ∧ (after (operator 0x17 0x80000001 1)).ax = 2 ∧
    (after (operator 0x18 0x80000000 31)).ax = 1 ∧ (after (operator 0x18 0x80000000 4)).ax = 0x08000000 := by decide

theorem test_shift_by_thirty_two : faultOf (operator 0x17 1 32) = faultAt 0 (.shiftCount 32) ∧
    faultOf (operator 0x18 1 32) = faultAt 0 (.shiftCount 32) ∧ (after (operator 0x17 1 32)).sp = 0x40000 ∧
    (after (operator 0x17 1 32)).ax = 32 := by decide

theorem test_add_sub : (after (operator 0x19 0xFFFFFFFF 1)).ax = 0 ∧ (after (operator 0x19 5 3)).ax = 8 ∧
    (after (operator 0x1A 3 5)).ax = 0xFFFFFFFE ∧ (after (operator 0x1A 3 1)).ax = 2 := by decide

theorem test_mul : (after (operator 0x1B 0xFFFFFFFF 0xFFFFFFFF)).ax = 1 ∧
    (after (operator 0x1B 6 7)).ax = 42 := by decide

theorem test_div_mod : (after (operator 0x1C 0xFFFFFFFF 2)).ax = 0x7FFFFFFF ∧
    (after (operator 0x1C 0x80000000 0xFFFFFFFF)).ax = 0 ∧ (after (operator 0x1D 0xFFFFFFFF 10)).ax = 5 ∧
    (after (operator 0x1D 3 5)).ax = 3 := by decide

theorem test_div_by_zero : faultOf (operator 0x1C 5 0) = faultAt 0 .divideByZero ∧
    faultOf (operator 0x1D 5 0) = faultAt 0 .divideByZero ∧ (after (operator 0x1C 5 0)).sp = 0x40000 := by decide

theorem test_reserved : faultOf (running [0x1E]) = faultAt 0 (.reservedOpcode 0x1E) ∧
    faultOf (running [0x1F]) = faultAt 0 (.reservedOpcode 0x1F) ∧
    faultOf (running [0x20]) = faultAt 0 (.reservedOpcode 0x20) ∧
    faultOf (running [0x21]) = faultAt 0 (.reservedOpcode 0x21) ∧
    faultOf (running [0x22]) = faultAt 0 (.reservedOpcode 0x22) ∧
    faultOf (running [0x23]) = faultAt 0 (.reservedOpcode 0x23) ∧
    faultOf (running [0x24]) = faultAt 0 (.reservedOpcode 0x24) ∧ (after (running [0x1E])).pc = 1 := by decide

theorem test_exit : (after { runningAt 12 [0x25] with ax := 8 }).reason = .exit ∧
    (after { runningAt 12 [0x25] with ax := 8 }).pc = 13 ∧ (after { runningAt 12 [0x25] with ax := 8 }).ax = 8 ∧
    (after { runningAt 12 [0x25] with ax := 8 }).diags = [] := by decide

theorem test_unknown_opcode : faultOf (running [0xFF]) = faultAt 0 (.unknownOpcode 0xFF) ∧
    (after (running [0xFF])).pc = 1 ∧ (after (running [0xFF])).diags = [.unknownOpcode] := by decide

theorem test_fetch_beyond_text : faultOf (runningAt 0x40000 []) =
      faultAt 0x40000 (.invalidAddress .textLocal 0x40000 .byte .read) ∧
    (after (runningAt 0x40000 [])).pc = 0x40000 := by decide

/-- 95_test_vectors.md P4, its third step: the store of SI is what the next fetch reads. -/
theorem test_store_into_text_is_fetched :
    (after (after { runningAt 10 [0x04, 0xFF] with ax := 0x25000000, sp := 0x8000B })).reason = .exit := by decide

/-- 95_test_vectors.md S6 and P3: CALL, ENT, LEV under both strides (R242). -/
theorem test_call_ent_lev :
    let s := runningOn tiny [0x09, 0, 0, 0, 5, 0x0A, 0, 0, 0, 2, 0x0C]
    let five := runningOn tinyFive [0x09, 0, 0, 0, 5, 0x0A, 0, 0, 0, 2, 0x0C]
    (runFor 3 s).pc = 1 ∧ (runFor 3 s).sp = 16 ∧ (runFor 3 s).bp = 16 ∧
      (runFor 3 five).pc = 0 ∧ (runFor 3 five).sp = 14 ∧ (runFor 3 five).bp = 16 := by decide

/-- 95_test_vectors.md section 2.9: the load and run protocol. -/
theorem test_protocol :
    (transact .execute State.reset).1 = .protocolError ∧
      (transact (.load [0x25]) State.reset).1 = .ok ∧
      (transact (.load [0x25]) (transact (.load [0x25]) State.reset).2).1 = .protocolError ∧
      runAnswer (runFor 1 (transact .execute (transact (.load [0x25]) State.reset).2).2) = some .exit := by decide

/-- 70_reset_and_hazards.md R223, at both sides of the bound, in the small configuration. -/
theorem test_oversized :
    (transact (.load (List.replicate 17 0xFF)) (State.resetOf tiny)).1 = .oversizedProgram ∧
      (transact (.load (List.replicate 17 0xFF)) (State.resetOf tiny)).2.mem = ⟨[], [], []⟩ ∧
      (transact (.load (List.replicate 16 0xFF)) (State.resetOf tiny)).1 = .ok := by decide

theorem test_observe : (transact .observe State.reset).1 = .view (observation State.reset) ∧
    (transact .observe (running [])).1 = .protocolError := by decide

/-- 60_exceptions.md R198. -/
theorem test_cause_codes : Reason.none.code = 0 ∧ Reason.exit.code = 1 ∧ (Reason.fault .invalidAddress).code = 2 ∧
    (Reason.fault .unknownOpcode).code = 3 ∧ (Reason.fault .reservedOpcode).code = 4 ∧
    (Reason.fault .divideByZero).code = 5 ∧ (Reason.fault .shiftCount).code = 6 ∧
    (Reason.fault .oversizedProgram).code = 7 := by decide

/-! Witnesses: for each statement with hypotheses, states and operands that meet them, clause by clause at the bounds of their
ranges. -/

/-- The small block, running, with `pc` at an offset and nothing in memory: END is 48, each region has 16 bytes. -/
def small (pc : Word) : State := { runningOn tiny [] with pc := pc }

theorem witness_TranslatorSelectsRegionAndOffset :
    (0 : Word).toNat < tiny.stackSize ∧ (15 : Word).toNat < tiny.stackSize ∧
      tiny.stackSize ≤ (16 : Word).toNat ∧ (31 : Word).toNat < tiny.stackSize + tiny.dataSize ∧
      tiny.stackSize + tiny.dataSize ≤ (32 : Word).toNat ∧
      (47 : Word).toNat < tiny.stackSize + tiny.dataSize + tiny.textSize ∧
      tiny.stackSize + tiny.dataSize + tiny.textSize ≤ (48 : Word).toNat := by decide

theorem witness_EachAddressIsBackedByOneRegionByte :
    tiny.sizesLegal = true ∧ 15 < tiny.sizeOf .text ∧ (47 : Word).toNat < tiny.endAddr ∧
      tiny.endAddr ≤ (48 : Word).toNat := by decide

theorem witness_AccessorRoundTripLaws :
    (small 0).mem.wf = true ∧ (47 : Word).toNat < (small 0).cfg.endAddr ∧
      translateAddr (small 0).cfg 12 = some (.stack, 12) ∧ 12 + 3 < (small 0).cfg.sizeOf .stack := by decide

theorem witness_WordsAreBigEndian :
    (small 0).cfg.sizesLegal = true ∧ readWord (small 0) 44 = .value 0 ∧ textReadWord (small 0) 12 = .value 0 := by
  decide

theorem witness_AccessOutsideOneRegionRaises :
    byteFits tiny 47 = true ∧ byteFits tiny 48 = false ∧ wordFits tiny 12 = true ∧ wordFits tiny 13 = false ∧
      wordFits tiny 15 = false ∧ wordFits tiny 16 = true ∧ wordFits tiny 45 = false := by decide

theorem witness_TextReadsStayInTheTextRegion :
    (small 0).cfg.sizesLegal = true ∧ (15 : Word).toNat + 1 ≤ (small 0).cfg.textSize ∧
      (small 0).cfg.textSize < (16 : Word).toNat + 1 ∧ (12 : Word).toNat + 4 ≤ (small 0).cfg.textSize ∧
      (small 0).cfg.textSize < (13 : Word).toNat + 4 := by decide

theorem witness_DecodingInvertsTheOpcodeMap :
    OpcodeMap.reference.injective = true ∧
      decode .reference [0x0D, 0x7F, 0x25] = .instr ⟨.lea, .offset 127⟩ [0x25] := by decide

theorem witness_DecodeOfEncodeIsTheInstruction :
    OpcodeMap.reference.injective = true ∧ (AsmInstr.mk .imm (.word 0xFFFFFFFF)).wellFormed = true ∧
      (AsmInstr.mk .lea (.offset (-128))).wellFormed = true ∧ (AsmInstr.mk .exit .absent).wellFormed = true := by
  decide

theorem witness_DecodedBytesAreTheEncoding :
    decode .reference [0x06, 0xFF, 0xFF, 0xFF, 0xFF] = .instr ⟨.jmp, .word 0xFFFFFFFF⟩ [] := by decide

theorem witness_ListingsAssembleToTheirBytes :
    (∀ a ∈ [AsmInstr.mk .imm (.word 0), AsmInstr.mk .lea (.offset (-1))], a.wellFormed = true) ∧
      (∀ item ∈ [AsmItem.byte 0, .instr ⟨.lc, .absent⟩], item ≠ .label ['f']) ∧
      assembleItems .reference ([AsmItem.byte 0, .instr ⟨.lc, .absent⟩] ++ .label ['f'] :: [.toLabel .jmp ['f']])
        [AsmItem.byte 0, .instr ⟨.lc, .absent⟩] = some [0x00, 0x01] := by decide

theorem witness_StepFetchesAdvancesAndRoutes :
    (small 0).lifecycle = .running ∧ textReadByte (small 15) 15 = .value 0x00 ∧
      decodeOpcode (small 0).cfg.opcodeMap 0x00 = some .imm ∧
      textReadByte (runningOn tiny [0x26]) 0 = .value 0x26 ∧ decodeOpcode tiny.opcodeMap 0x26 = none ∧
      textReadByte (small 16) 16 = .raise (.invalidAddress .textLocal 16 .byte .read) := by decide

/-- An instruction with a word operand and one with a byte operand, each ending with the last byte of the text region. -/
theorem witness_StepRunsTheDecodedInstruction :
    (small 0).lifecycle = .running ∧ (small 0).cfg.sizesLegal = true ∧
      textHolds (small 11) 11 [0x00, 0x00, 0x00, 0x00, 0x00] = true ∧
      decode tiny.opcodeMap [0x00, 0x00, 0x00, 0x00, 0x00] = .instr ⟨.imm, .word 0⟩ [] ∧
      textHolds (runningOn tiny (List.replicate 14 0 ++ [0x0D, 0xFF])) 14 [0x0D, 0xFF] = true ∧
      decode tiny.opcodeMap [0x0D, 0xFF] = .instr ⟨.lea, .offset (-1)⟩ [] := by decide

theorem witness_FetchBeyondTheTextRegionFaults :
    (small 16).lifecycle = .running ∧ (small 16).cfg.textSize ≤ (small 16).pc.toNat := by decide

theorem witness_UnknownOpcodeHalts :
    let s := { runningOn tiny (List.replicate 15 0 ++ [0x26]) with pc := 15 }
    s.lifecycle = .running ∧ s.pc.toNat < s.cfg.textSize ∧
      ∀ i ∈ Instr.all, s.cfg.opcodeMap.byteOf i ≠ cellAt s.mem.text s.pc.toNat := by decide

theorem witness_StepEndsInOneOfThreeWays : (small 0).lifecycle = .running := by decide

theorem witness_DispatcherIsIdleOutsideRunning :
    State.reset.lifecycle ≠ .running ∧ (takeExit (small 0)).lifecycle ≠ .running ∧
      (transact (.load []) State.reset).2.lifecycle ≠ .running := by decide

/-- The operand of IMM, JMP, CALL, ENT, ADJ and a taken JZ or JNZ: the last place it fits, and the first it does not. -/
theorem witness_word_operand :
    (small 12).pc.toNat + 4 ≤ (small 12).cfg.textSize ∧ (small 13).cfg.textSize < (small 13).pc.toNat + 4 := by decide

/-- ImmLoadsItsOperand. -/
theorem witness_ImmLoadsItsOperand :
    (small 12).pc.toNat + 4 ≤ (small 12).cfg.textSize ∧ (small 13).cfg.textSize < (small 13).pc.toNat + 4 :=
  witness_word_operand

theorem witness_LcLoadsAByteZeroExtended :
    ({ small 1 with ax := 47 }).ax.toNat < (small 1).cfg.endAddr ∧
      (small 1).cfg.endAddr ≤ ({ small 1 with ax := 48 }).ax.toNat := by decide

theorem witness_LiLoadsAWord :
    wordFits (small 1).cfg ({ small 1 with ax := 44 }).ax = true ∧
      wordFits (small 1).cfg ({ small 1 with ax := 45 }).ax = false := by decide

theorem witness_ScStoresTheLowByte :
    (small 1).mem.wf = true ∧ ({ small 1 with sp := 47 }).sp.toNat < (small 1).cfg.endAddr ∧
      (small 1).cfg.endAddr ≤ ({ small 1 with sp := 48 }).sp.toNat := by decide

theorem witness_SiStoresTheAccumulator :
    (small 1).mem.wf = true ∧ wordFits (small 1).cfg ({ small 1 with sp := 12 }).sp = true ∧
      wordFits (small 1).cfg ({ small 1 with sp := 13 }).sp = false := by decide

/-- PUSH from an empty stack and from `sp = 4`, the last that fits, and from 3, the first that does not; with stride 5 from 5
and 4. -/
theorem witness_PushLowersSpAndStores :
    (small 1).mem.wf = true ∧ wordFits tiny (pushAddress (small 1)) = true ∧
      wordFits tiny (pushAddress { small 1 with sp := 4 }) = true ∧
      wordFits tiny (pushAddress { small 1 with sp := 3 }) = false ∧
      wordFits tinyFive (pushAddress { small 1 with cfg := tinyFive, sp := 5 }) = true ∧
      wordFits tinyFive (pushAddress { small 1 with cfg := tinyFive, sp := 4 }) = false := by decide

theorem witness_JmpLoadsPcFromItsOperand :
    (small 12).pc.toNat + 4 ≤ (small 12).cfg.textSize ∧ (small 13).cfg.textSize < (small 13).pc.toNat + 4 :=
  witness_word_operand

theorem witness_JzAndJnzJumpOnZero :
    ({ small 12 with ax := 0x80000000 }).ax ≠ 0 ∧ (small 12).ax = 0 ∧
      (small 12).pc.toNat + 4 ≤ (small 12).cfg.textSize ∧ (small 13).ax = 0 ∧
      (small 13).cfg.textSize < (small 13).pc.toNat + 4 := by decide

theorem witness_CallPushesTheLinkThenJumps :
    (small 12).mem.wf = true ∧ wordFits tiny (pushAddress (small 12)) = true ∧
      (small 12).pc.toNat + 4 ≤ (small 12).cfg.textSize ∧ wordFits tiny (pushAddress (small 13)) = true ∧
      (small 13).cfg.textSize < (small 13).pc.toNat + 4 ∧
      wordFits tiny (pushAddress { small 12 with sp := 3 }) = false := by decide

theorem witness_EntOpensAFrame :
    (small 12).mem.wf = true ∧ wordFits tiny (pushAddress (small 12)) = true ∧
      (small 12).pc.toNat + 4 ≤ (small 12).cfg.textSize ∧ wordFits tiny (pushAddress (small 13)) = true ∧
      (small 13).cfg.textSize < (small 13).pc.toNat + 4 ∧
      wordFits tiny (pushAddress { small 12 with sp := 3 }) = false :=
  witness_CallPushesTheLinkThenJumps

theorem witness_AdjRaisesSp :
    (small 12).pc.toNat + 4 ≤ (small 12).cfg.textSize ∧ (small 13).cfg.textSize < (small 13).pc.toNat + 4 :=
  witness_word_operand

theorem witness_LevRestoresTheFrame :
    wordFits tiny ({ small 1 with bp := 8 }).bp = true ∧ wordFits tiny (({ small 1 with bp := 8 }).bp + 4) = true ∧
      wordFits tiny ({ small 1 with bp := 44 }).bp = true ∧ wordFits tiny (({ small 1 with bp := 44 }).bp + 4) = false ∧
      wordFits tiny ({ small 1 with bp := 45 }).bp = false := by decide

/-- The operand at the last text byte; the address `bp` (offset 0) at the last word that fits, and beyond; no operand left. -/
theorem witness_LeaLoadsAFrameWord :
    (small 15).pc.toNat < (small 15).cfg.textSize ∧ textReadByte (small 15) 15 = .value 0 ∧
      ((44 : Word).toNat : Int) = (({ small 15 with bp := 44 }).bp.toNat + (0 : Byte).toInt * 4) % 2 ^ 32 ∧
      wordFits tiny 44 = true ∧
      ((45 : Word).toNat : Int) = (({ small 15 with bp := 45 }).bp.toNat + (0 : Byte).toInt * 4) % 2 ^ 32 ∧
      wordFits tiny 45 = false ∧ (small 16).cfg.textSize ≤ (small 16).pc.toNat := by decide

/-- The block with CALL's and ENT's operands in place, where CALL's handler starts. -/
def calling (c : Config) : State := { runningOn c [0x09, 0, 0, 0, 5, 0x0A, 0, 0, 0, 2, 0x0C] with pc := 1 }

theorem witness_CallEntLevRoundTrip :
    (calling tiny).mem.wf = true ∧ (calling tiny).cfg.sizesLegal = true ∧ (calling tiny).cfg.pushStride = .four ∧
      (calling tiny).lifecycle = .running ∧
      ∃ t u, exec .call (calling tiny) = .next t ∧ t.lifecycle = .running ∧
        exec .ent { t with pc := t.pc + 1 } = .next u ∧ u.lifecycle = .running :=
  ⟨by decide, by decide, rfl, rfl, _, _, rfl, rfl, rfl, rfl⟩

theorem witness_StrideFiveMisreadsTheLink :
    (calling tinyFive).mem.wf = true ∧ (calling tinyFive).cfg.sizesLegal = true ∧
      (calling tinyFive).cfg.pushStride = .five ∧ (calling tinyFive).lifecycle = .running ∧
      ∃ t u, exec .call (calling tinyFive) = .next t ∧ t.lifecycle = .running ∧
        exec .ent { t with pc := t.pc + 1 } = .next u ∧ u.lifecycle = .running ∧
        wordFits u.cfg (u.bp + 4) = true :=
  ⟨by decide, by decide, rfl, rfl, _, _, rfl, rfl, rfl, rfl, by decide⟩

theorem witness_ZeroByteRunsAsImm :
    let s := runningOn tiny (List.replicate 12 0 ++ [0, 0, 0x0C, 0xFF])
    let t := { s with pc := 11 }
    t.lifecycle = .running ∧ t.cfg.opcodeMap = .reference ∧ t.cfg.sizesLegal = true ∧
      textHolds t t.pc.toNat [0x00, 0, 0, 0x0C, 0xFF] = true := by decide

/-- BitwiseOperators, EqualityOperators, OrderingOperators, ShiftsBelowThirtyTwo, AddSubMulModulo, DivModByNonzero: a poppable word at the last stack address, none one byte above; the accumulators admitted, at
the bounds: a count of 31, a divisor of 1. -/
theorem witness_BinaryOperator :
    wordFits tiny ({ small 1 with sp := 12 }).sp = true ∧ wordFits tiny ({ small 1 with sp := 13 }).sp = false ∧
      ({ small 1 with ax := 31 }).ax.toNat < 32 ∧ ({ small 1 with ax := 1 }).ax ≠ 0 := by decide

theorem witness_OperatorFaultsComeAfterThePop :
    wordFits tiny ({ small 1 with sp := 12, ax := 32 }).sp = true ∧
      32 ≤ ({ small 1 with sp := 12, ax := 32 }).ax.toNat ∧ (small 1).ax = 0 ∧
      wordFits tiny (small 1).sp = true := by decide

theorem witness_ReservedOpcodesFault :
    ∀ i ∈ [Instr.open_, .read, .clos, .prtf, .malc, .mset, .mcmp],
      i = .open_ ∨ i = .read ∨ i = .clos ∨ i = .prtf ∨ i = .malc ∨ i = .mset ∨ i = .mcmp := by decide

/-- A next state of an instruction that stores nothing, and of one that stores. -/
theorem witness_MemoryChangesOnlyWhereStored :
    storeSpan .jmp (small 1) = none ∧ storeSpan .push (small 1) = some (12, 4) ∧ outside 12 4 11 ∧ outside 12 4 16 ∧
      ∃ t u, exec .jmp (small 1) = .next t ∧ exec .push (small 1) = .next u :=
  ⟨by decide, by decide, .inl (by decide), .inr (by decide), _, _, rfl, rfl⟩

theorem witness_BpTouchedOnlyByEntLevLea :
    Instr.lea ≠ .ent ∧ Instr.lea ≠ .lev ∧ Instr.push ≠ .ent ∧ Instr.push ≠ .lev ∧ Instr.push ≠ .lea ∧
      ∃ t, exec .lea (small 1) = .next t := ⟨by decide, by decide, by decide, by decide, by decide, _, rfl⟩

theorem witness_AxTouchedOnlyByItsInstructions :
    (∀ i ∈ [Instr.open_, .read, .clos, .prtf, .malc, .mset, .mcmp, .exit],
        i ∈ [Instr.jmp, .call, .ent, .adj, .lev, .open_, .read, .clos, .prtf, .malc, .mset, .mcmp, .exit]) ∧
      ∃ t u v, exec .push (small 1) = .next t ∧ exec .jz (small 1) = .next u ∧ exec .jnz (small 1) = .next v :=
  ⟨by decide, _, _, _, rfl, rfl, rfl⟩

theorem witness_SpTouchedOnlyByItsInstructions :
    Instr.lea ∈ [Instr.imm, .lc, .li, .jmp, .jz, .jnz, .lea, .open_, .read, .clos, .prtf, .malc, .mset, .mcmp, .exit] ∧
      ∃ t u, exec .sc (small 1) = .next t ∧ exec .si (small 1) = .next u := ⟨by decide, _, _, rfl, rfl⟩

/-- An instruction that ends with the last byte of the text region, and a JZ not taken whose operand lies beyond it. -/
theorem witness_PcAdvancesByTheInstructionLength :
    (small 11).lifecycle = .running ∧ (small 11).cfg.sizesLegal = true ∧
      textReadByte (small 11) (small 11).pc = .value 0x00 ∧
      decodeOpcode (small 11).cfg.opcodeMap 0x00 = some .imm ∧ transfersControl .imm = false ∧
      (∃ t, step (small 11) = .next t ∧ t.lifecycle = .running) ∧
      ∃ t, step { runningOn tiny (List.replicate 15 0 ++ [0x07]) with pc := 15, ax := 1 } = .next t ∧
        t.lifecycle = .running :=
  ⟨by decide, by decide, by decide, by decide, by decide, ⟨_, rfl, rfl⟩, _, rfl, rfl⟩

theorem witness_StoreIntoTextIsFetched :
    (small 0).mem.wf = true ∧ (small 0).cfg.sizesLegal = true ∧ (15 : Word).toNat < (small 0).cfg.textSize := by decide

theorem witness_ConfigurationNeverChanges : ∃ t, step (small 0) = .next t := ⟨_, rfl⟩

theorem witness_ResetValues :
    tiny.sizesLegal = true ∧ referenceConfig.sizesLegal = true ∧ (47 : Word).toNat < tiny.endAddr := by decide

/-- A stream that fills the text region. -/
theorem witness_LoadPlacesTheStream :
    (State.resetOf tiny).lifecycle = .empty ∧ (State.resetOf tiny).mem.wf = true ∧
      (List.replicate 16 (0xFF : Byte)).length ≤ (State.resetOf tiny).cfg.textSize := by decide

theorem witness_OversizedLoadHaltsUnchanged :
    (State.resetOf tiny).lifecycle = .empty ∧
      (State.resetOf tiny).cfg.textSize < (List.replicate 17 (0xFF : Byte)).length := by decide

theorem witness_WrongStateCommandsAreRefused :
    (takeExit (small 0)).lifecycle ≠ .empty ∧ State.reset.lifecycle ≠ .loaded := by decide

theorem witness_LaunchStateIsDetermined :
    (List.replicate 16 (0xFF : Byte)).length ≤ (small 0).cfg.textSize := by decide

/-- Reset, load, run meets the invariant, and its step answers a next state. -/
theorem witness_StepKeepsTheInvariant :
    let s := (transact .execute (transact (.load [0x05]) (State.resetOf tiny)).2).2
    s.lifecycle = .running ∧ s.Inv = true ∧ ∃ t, step s = .next t := ⟨by decide, by decide, _, rfl⟩

theorem witness_TransactionsKeepTheInvariant : (State.resetOf tiny).Inv = true ∧ State.reset.Inv = true := by decide

end Sys2Proof.Tests
end

section
/-! The translator, range by range (20_memory.md R31). -/

namespace Sys2Proof.Machine

/-- An address in a region's range is that region's, at its distance from the region's base. -/
theorem translateAddr_of_mem_region {c : Config} {a : Word} {r : Region} (hlo : c.baseOf r ≤ a.toNat)
    (hhi : a.toNat < c.baseOf r + c.sizeOf r) : translateAddr c a = some (r, a.toNat - c.baseOf r) :=
  (translate_eq_some_iff c a r _).2 ⟨Nat.sub_lt_left_of_lt_add hlo hhi, Nat.add_sub_cancel' hlo⟩

/-- Settles O1: each region's range is the one from its base to its size above it, and `END` closes the last. -/
theorem translatorSelectsRegionAndOffset : Obligations.TranslatorSelectsRegionAndOffset := by
  intro c a
  refine ⟨fun hstack => ?_, fun hlo hdata => ?_, fun hlo htext => ?_, fun hend => ?_⟩
  · exact translateAddr_of_mem_region (r := .stack) (Nat.zero_le _) (Nat.lt_add_left 0 hstack)
  · exact translateAddr_of_mem_region (r := .data) hlo hdata
  · rw [Nat.sub_sub]
    exact translateAddr_of_mem_region (r := .text) hlo htext
  · exact (translate_eq_none_iff c a).2 hend

end Sys2Proof.Machine
end

section
/-! The opcode map and the length of an instruction (30_encoding.md R60, R65). -/

namespace Sys2Proof

/-- A well-formed instruction takes its opcode byte and the operand bytes of its format. -/
theorem encode_length (m : OpcodeMap) {a : AsmInstr} (h : a.wellFormed = true) :
    (encode m a).length = a.op.format.length := by
  rw [encode, List.length_cons, encodeOperand_length h]

/-- What decoding leaves is the byte string less the length of the instruction's format. -/
theorem length_of_decode {m : OpcodeMap} {bytes rest : List Byte} {a : AsmInstr}
    (h : decode m bytes = .instr a rest) : bytes.length = a.op.format.length + rest.length := by
  obtain ⟨hwf, hbytes⟩ := encode_of_decode h
  rw [hbytes, List.length_append, encode_length m hwf]

/-- Settles O7: `decodeOpcode` inverts an injective map, and what decodes is the encoding of a well-formed instruction, whose
length its format gives. -/
theorem decodingInvertsTheOpcodeMap : Obligations.DecodingInvertsTheOpcodeMap := fun m hm =>
  ⟨decodeOpcode_eq_some_iff hm, decodeOpcode_eq_none_iff m, fun _ _ _ => length_of_decode⟩

end Sys2Proof
end

section
/-! The step of a running block: fetch, advance of `pc`, routing, and how it ends (40_dispatch.md R81 to R83). -/

namespace Sys2Proof.Machine

/-- Fetch rule, decoded byte: the step is `exec` of the instruction, past the opcode byte. -/
theorem step_of_decoded {s : State} (hs : s.lifecycle = .running) {op : Byte} {i : Instr}
    (hf : fetchOpcode s = .value op) (hd : decodeOpcode s.cfg.opcodeMap op = some i) :
    step s = exec i (advancePc s) := by
  simp only [step, hs, hf, hd]

/-- Fetch rule, byte of no instruction: `UnknownOpcode` is taken past the byte. -/
theorem step_of_undecoded {s : State} (hs : s.lifecycle = .running) {op : Byte}
    (hf : fetchOpcode s = .value op) (hd : decodeOpcode s.cfg.opcodeMap op = none) :
    step s = .next (takeFault (some s.pc) (.unknownOpcode op) (advancePc s)) := by
  simp only [step, hs, hf, hd]

/-- Fetch rule, failed read: its fault is taken with `pc` where it was. -/
theorem step_of_fetch_raise {s : State} (hs : s.lifecycle = .running) {d : FaultDetail}
    (hf : fetchOpcode s = .raise d) : step s = .next (takeFault (some s.pc) d s) := by
  simp only [step, hs, hf]

/-- Settles O13: one fetch rule for each outcome of the read and the decoding. -/
theorem stepFetchesAdvancesAndRoutes : Obligations.StepFetchesAdvancesAndRoutes := fun _ hs =>
  ⟨fun _ _ => step_of_decoded hs, fun _ => step_of_undecoded hs, fun _ => step_of_fetch_raise hs⟩

/-- Settles O17: the three ways are those of `step_running_cases`; what a handler carries over keeps the lifecycle state and the
record, to which a fault then adds. -/
theorem stepEndsInOneOfThreeWays : Obligations.StepEndsInOneOfThreeWays := by
  intro s hs
  rcases step_running_cases hs with ⟨t, hstep, hc⟩ | ⟨d, t, hstep, hc, hk⟩ | ⟨hf, hstep⟩
  · exact ⟨t, hstep, .inl ⟨hc.lifecycle.trans hs, hc.reason, hc.faultInfo, hc.diags⟩⟩
  · have hdiags : (takeFault (some s.pc) d t).diags = s.diags ++ [d.kind] := by
      rw [takeFault_diags, hc.diags]
    exact ⟨_, hstep, .inr (.inl ⟨takeFault_lifecycle .., d, hk, takeFault_reason .., takeFault_faultInfo .., hdiags⟩)⟩
  · exact ⟨_, hstep, .inr (.inr ⟨hf, rfl⟩)⟩

end Sys2Proof.Machine
end

section
/-! IMM, LI and SI (41_load_store.md R100, R102, R104): handlers of one checked access, which ends each of them on its fault or
gives it the value it goes on with. -/

namespace Sys2Proof.Machine

/-- A checked statement that answers a value: the handler's outcome is that of its rest. -/
theorem concludeHandler_andThen_of_value {α : Type} {r : Checked α} {v : α} (h : r = .value v) (start s : State)
    (rest : α → HandlerResult) : concludeHandler start (r.andThen s rest) = concludeHandler start (rest v) := by
  rw [h, Checked.andThen_value]

/-- A checked statement that raises: its fault is taken in the state it was performed in, and the rest is not run. -/
theorem concludeHandler_andThen_of_raise {α : Type} {r : Checked α} {d : FaultDetail} (h : r = .raise d)
    (start s : State) (rest : α → HandlerResult) :
    concludeHandler start (r.andThen s rest) = .next (takeFault (some (start.pc - 1)) d s) := by
  rw [h, Checked.andThen_raise, concludeHandler_fault]

/-- Settles O25: `write_word` stores at `sp` and answers `ax` itself, so the assignment to `ax` changes nothing; where the word
does not fit, its fault ends the handler. -/
theorem siStoresTheAccumulator : Obligations.SiStoresTheAccumulator := by
  refine fun s => ⟨fun hwf hfits => ?_, fun hfits => ?_⟩
  · obtain ⟨m, hwrite, -, hstored, -⟩ := writeWord_of_fits (a := storeAddress s) s.ax hfits
    exact ⟨m, hstored hwf, concludeHandler_andThen_of_value hwrite ..⟩
  · exact concludeHandler_andThen_of_raise (writeWord_of_not_fits s.ax hfits) ..

/-- Settles O21: the operand read is the one check of the handler. -/
theorem immLoadsItsOperand : Obligations.ImmLoadsItsOperand := by
  refine fun s => ⟨fun hle => ?_, fun hlt => ?_⟩
  · obtain ⟨imm, hread⟩ := textReadWord_fits hle
    exact ⟨imm, hread, concludeHandler_andThen_of_value hread ..⟩
  · exact concludeHandler_andThen_of_raise (textReadWord_of_lt hlt) ..

/-- Settles O23: the read at `ax` is the one check of the handler. -/
theorem liLoadsAWord : Obligations.LiLoadsAWord := by
  refine fun s => ⟨fun hfits => ?_, fun hfits => ?_⟩
  · obtain ⟨w, hread⟩ := readWord_of_fits hfits
    exact ⟨w, hread, concludeHandler_andThen_of_value hread ..⟩
  · exact concludeHandler_andThen_of_raise (readWord_of_not_fits hfits) ..

end Sys2Proof.Machine
end

section
/-! JMP (42_control_frame.md R120): "perform JMP" (R129) is all its handler does. -/

namespace Sys2Proof.Machine

theorem exec_jmp (s : State) : exec .jmp s = concludeHandler s (performJmp s) := rfl

/-- Settles O27: the two ways "perform JMP" ends, each concluded by the dispatcher. -/
theorem jmpLoadsPcFromItsOperand : Obligations.JmpLoadsPcFromItsOperand := by
  refine fun s => ⟨fun hle => ?_, fun hlt => ?_⟩
  · obtain ⟨target, hread, hjump⟩ := performJmp_of_fits hle
    exact ⟨target, hread, by rw [exec_jmp, hjump, concludeHandler_proceed]⟩
  · rw [exec_jmp, performJmp_of_not_fits hlt, concludeHandler_fault]

end Sys2Proof.Machine
end

section
/-! The binary operators (43_binary_ops.md): the skeleton R140 once, for any operator function; an instruction then needs only what
its function delivers. -/

namespace Sys2Proof.Machine

/-- The skeleton R140, concluded: where the operator function delivers a value for every admitted accumulator, the instruction is
a binary operator with the results those values meet. -/
theorem binaryOperator_of_delivers {i : Instr} {f : Word → Word → Checked Word} {admits : Word → Prop}
    {result : Word → Word → Word → Prop} (hexec : ∀ s, exec i s = concludeHandler s (binaryOp f s))
    (hdelivers : ∀ left ax, admits ax → ∃ v, f left ax = .value v ∧ result left ax v) :
    BinaryOperator i admits result := by
  refine fun s => ⟨fun hfits hadmits => ?_, fun hfits => ?_⟩
  · obtain ⟨left, hread, hop⟩ := binaryOp_of_fits f hfits
    obtain ⟨v, hv, hresult⟩ := hdelivers left s.ax hadmits
    exact ⟨left, v, hread, hresult, by rw [hexec, hop, concludeHandler_andThen_of_value hv, concludeHandler_proceed]⟩
  · rw [hexec, binaryOp_of_not_fits f hfits, concludeHandler_fault]

/-- The operators that never fault: their function delivers the value of a function on words, whatever the accumulator. -/
theorem binaryOperator_of_total {i : Instr} {g : Word → Word → Word} {result : Word → Word → Word → Prop}
    (hexec : ∀ s, exec i s = concludeHandler s (binaryOp (fun left ax => .value (g left ax)) s))
    (hresult : ∀ left ax, result left ax (g left ax)) : BinaryOperator i (fun _ => True) result :=
  binaryOperator_of_delivers hexec fun left ax _ => ⟨g left ax, rfl, hresult left ax⟩

/-- Settles O37: the library's bits of `|||`, `^^^` and `&&&`, over the skeleton. -/
theorem bitwiseOperators : Obligations.BitwiseOperators :=
  ⟨binaryOperator_of_total (fun _ => rfl) fun _ _ _ _ => BitVec.getLsbD_or,
    binaryOperator_of_total (fun _ => rfl) fun _ _ _ _ => BitVec.getLsbD_xor,
    binaryOperator_of_total (fun _ => rfl) fun _ _ _ _ => BitVec.getLsbD_and⟩

/-- The word EQ delivers compares the words as numbers. -/
theorem truthWord_beq (left right : Word) :
    truthWord (left == right) = if left.toNat = right.toNat then 1 else 0 := by
  simp only [truthWord, beq_iff_eq, BitVec.toNat_inj]

/-- The word NE delivers compares the words as numbers. -/
theorem truthWord_bne (left right : Word) :
    truthWord (left != right) = if left.toNat = right.toNat then 0 else 1 := by
  simp only [truthWord, bne_iff_ne, ite_not, BitVec.toNat_inj]

/-- Settles O38: the word delivered is the truth word of the comparison of the two numbers, over the skeleton. -/
theorem equalityOperators : Obligations.EqualityOperators :=
  ⟨binaryOperator_of_total (fun _ => rfl) truthWord_beq, binaryOperator_of_total (fun _ => rfl) truthWord_bne⟩

/-- A difference of words is the integers' difference mod 2^32, also where it wraps below zero. -/
theorem toNat_sub_eq_emod (left right : Word) :
    ((left - right).toNat : Int) = ((left.toNat : Int) - (right.toNat : Int)) % 2 ^ 32 := by
  have hright := right.isLt
  rw [BitVec.toNat_sub]
  omega

/-- Settles O41: words add, subtract and multiply as numbers mod 2^32, over the skeleton. -/
theorem addSubMulModulo : Obligations.AddSubMulModulo :=
  ⟨binaryOperator_of_total (fun _ => rfl) BitVec.toNat_add,
    binaryOperator_of_total (fun _ => rfl) toNat_sub_eq_emod,
    binaryOperator_of_total (fun _ => rfl) BitVec.toNat_mul⟩

end Sys2Proof.Machine
end

section
/-! The two directions of the encoding round trip, the default map, and listings (30_encoding.md sections 1 to 4 and 6). -/

namespace Sys2Proof

/-- Settles O9: the operand of a well-formed instruction is read back from its encoding, behind an opcode byte that an injective
map gives to no other. -/
theorem decodeOfEncodeIsTheInstruction : Obligations.DecodeOfEncodeIsTheInstruction :=
  fun m _ rest hm hwf => ⟨decode_encode hm hwf rest, encode_length m hwf⟩

/-- Settles O10: decoding takes only operand bytes that are the encoding of the operand it answers. -/
theorem decodedBytesAreTheEncoding : Obligations.DecodedBytesAreTheEncoding :=
  fun _ _ _ _ h => encode_of_decode h

/-- The default map numbers the instructions in table order. -/
theorem map_byteOf_reference :
    Instr.all.map OpcodeMap.reference.byteOf = (List.range 0x26).map (BitVec.ofNat 8) := by decide

/-- A byte is an opcode of the default map exactly below 0x26. -/
theorem exists_byteOf_reference_iff (b : Byte) : (∃ i, OpcodeMap.reference.byteOf i = b) ↔ b.toNat < 0x26 := by
  have hmem : (∃ i, OpcodeMap.reference.byteOf i = b) ↔ b ∈ (List.range 0x26).map (BitVec.ofNat 8) := by
    simp only [← map_byteOf_reference, List.mem_map, mem_all, true_and]
  rw [hmem, List.mem_map]
  constructor
  · rintro ⟨k, hk, rfl⟩
    have := List.mem_range.1 hk
    rw [BitVec.toNat_ofNat]
    omega
  · exact fun hb => ⟨b.toNat, List.mem_range.2 hb, by simp⟩

/-- Settles O8: the bytes of the default map are the numbers below 0x26. -/
theorem defaultMapUnknownBytes : Obligations.DefaultMapUnknownBytes := by
  refine ⟨reference_injective, fun b => ?_⟩
  rw [decodeOpcode_eq_none_iff, ← not_exists, exists_byteOf_reference_iff, not_lt]

/-- Settles O11: the decoder evaluated on each of the seven byte strings. -/
theorem writtenOutWordsDecode : Obligations.WrittenOutWordsDecode := by
  refine ⟨?_, ?_, ?_, ?_, ?_, ?_, ?_⟩ <;> decide

/-- A list of items assembles exactly when its first item and the others do, to the bytes of the one before those of the others. -/
theorem assembleItems_cons_eq_some_iff (m : OpcodeMap) (listing rest : List AsmItem) (item : AsmItem) (bytes : List Byte) :
    assembleItems m listing (item :: rest) = some bytes ↔
      ∃ front back, assembleItem m listing item = some front ∧ assembleItems m listing rest = some back ∧
        front ++ back = bytes := by
  rw [assembleItems]
  cases assembleItem m listing item <;> cases assembleItems m listing rest <;> simp

/-- Well-formed instructions assemble to their encodings, whatever listing they stand in. -/
theorem assembleItems_instrs (m : OpcodeMap) (listing : List AsmItem) {program : List AsmInstr}
    (h : ∀ a ∈ program, a.wellFormed = true) :
    assembleItems m listing (program.map .instr) = some (program.flatMap (encode m)) := by
  induction program with
  | nil => rfl
  | cons a rest ih =>
    obtain ⟨ha, hrest⟩ := List.forall_mem_cons.1 h
    rw [List.map_cons, assembleItems_cons_eq_some_iff]
    exact ⟨_, _, if_pos ha, ih hrest, rfl⟩

/-- An item that assembles takes as many bytes as its length says. -/
theorem length_of_assembleItem {m : OpcodeMap} {listing : List AsmItem} {item : AsmItem} {bytes : List Byte}
    (h : assembleItem m listing item = some bytes) : bytes.length = item.length := by
  cases item with
  | label name =>
    cases h
    rfl
  | byte v =>
    cases h
    rfl
  | instr a =>
    obtain ⟨hwf, ⟨⟩⟩ := Option.ite_none_right_eq_some.1 h
    exact encode_length m hwf
  | toLabel op name =>
    rw [assembleItem] at h
    split at h
    · cases h
    · obtain ⟨hwf, ⟨⟩⟩ := Option.ite_none_right_eq_some.1 h
      exact encode_length m hwf

/-- An item that does not define a label moves the label's offset on by its length. -/
theorem labelOffset_cons_of_ne {name : List Char} {item : AsmItem} (h : item ≠ .label name) (rest : List AsmItem)
    (start : Nat) : labelOffset name (item :: rest) start = labelOffset name rest (start + item.length) := by
  cases item with
  | label other => exact if_neg fun heq : other = name => h (congrArg _ heq)
  | instr _ => rfl
  | toLabel _ _ => rfl
  | byte _ => rfl

/-- The first definition of a label stands for the number of bytes the items before it assemble to, counted from `start`. -/
theorem labelOffset_of_assembleItems {m : OpcodeMap} {listing before : List AsmItem} {name : List Char} {bytes : List Byte}
    (hfirst : ∀ item ∈ before, item ≠ .label name) (h : assembleItems m listing before = some bytes)
    (after : List AsmItem) (start : Nat) :
    labelOffset name (before ++ .label name :: after) start = some (start + bytes.length) := by
  induction before generalizing bytes start with
  | nil =>
    cases h
    exact if_pos rfl
  | cons item rest ih =>
    obtain ⟨hitem, hrest⟩ := List.forall_mem_cons.1 hfirst
    obtain ⟨front, back, hfront, hback, rfl⟩ := (assembleItems_cons_eq_some_iff ..).1 h
    rw [List.cons_append, labelOffset_cons_of_ne hitem, ih hrest hback, List.length_append, length_of_assembleItem hfront,
      Nat.add_assoc]

/-- Settles O12: an induction over the program for the bytes, and one over the items before the label for its offset. -/
theorem listingsAssembleToTheirBytes : Obligations.ListingsAssembleToTheirBytes := by
  refine ⟨fun m _ h => assembleItems_instrs m _ h, fun m before after name bytes hfirst h => ?_⟩
  rw [labelOffset_of_assembleItems hfirst h, Nat.zero_add]

end Sys2Proof
end

section
/-! The invariant of the block: what each of its parts says in each lifecycle state, and that reset, every step and every host
command keep it (10_state.md sections 3 to 5). -/

namespace Sys2Proof.Machine

theorem State.inv_iff (s : State) :
    s.Inv = true ↔
      (s.mem.wf = true ∧ s.mem.inBounds s.cfg = true) ∧ s.recordConsistent = true ∧ s.launchConsistent = true := by
  simp only [State.Inv, Bool.and_eq_true, and_assoc]

/-- Nothing is recorded: the reason is `None`, the fault record is empty and no `Diag` has been emitted. -/
structure State.Unrecorded (s : State) : Prop where
  reason : s.reason = .none
  faultInfo : s.faultInfo = none
  diags : s.diags = []

/-- Before the halt the record agrees with the lifecycle state exactly when nothing is recorded. -/
theorem recordConsistent_iff_unrecorded {s : State} (h : s.lifecycle ≠ .halted) :
    s.recordConsistent = true ↔ s.Unrecorded := by
  constructor
  · intro hr
    unfold State.recordConsistent at hr
    split at hr
    · exact ⟨‹_›, ‹_›, ‹_›⟩
    · exact ⟨‹_›, ‹_›, ‹_›⟩
    · exact ⟨‹_›, ‹_›, ‹_›⟩
    · exact absurd ‹_› h
    · exact absurd ‹_› h
    · cases hr
  · rintro ⟨hreason, hinfo, hdiags⟩
    cases hl : s.lifecycle with
    | halted => exact absurd hl h
    | empty => simp only [State.recordConsistent, hl, hreason, hinfo, hdiags]
    | loaded => simp only [State.recordConsistent, hl, hreason, hinfo, hdiags]
    | running => simp only [State.recordConsistent, hl, hreason, hinfo, hdiags]

/-- The halt on a fault leaves a record that agrees with it: an `insn_pc` is there unless the fault is `OversizedProgram`. -/
theorem recordConsistent_takeFault {s : State} (h : s.Unrecorded) {p : Option Word} {d : FaultDetail}
    (hp : p.isNone = decide (d.kind = .oversizedProgram)) : (takeFault p d s).recordConsistent = true := by
  simp [State.recordConsistent, h.diags, hp]

/-- The clean halt leaves nothing recorded but the reason. -/
theorem recordConsistent_takeExit {s : State} (h : s.Unrecorded) : (takeExit s).recordConsistent = true := by
  simp [State.recordConsistent, h.faultInfo, h.diags]

theorem launchConsistent_of_running {s : State} (h : s.lifecycle = .running) : s.launchConsistent = true := by
  simp only [State.launchConsistent, h]

theorem launchConsistent_of_halted {s : State} (h : s.lifecycle = .halted) : s.launchConsistent = true := by
  simp only [State.launchConsistent, h]

theorem launchConsistent_iff_of_empty {s : State} (h : s.lifecycle = .empty) :
    s.launchConsistent = true ↔ s = State.resetOf s.cfg := by
  simp only [State.launchConsistent, h, decide_eq_true_eq]

theorem launchConsistent_iff_of_loaded {s : State} (h : s.lifecycle = .loaded) :
    s.launchConsistent = true ↔
      s = ((State.resetOf s.cfg).setMem ⟨[], [], s.mem.text⟩).setLifecycle .loaded := by
  simp only [State.launchConsistent, h, decide_eq_true_eq]

/-- Outside `Halted` the invariant leaves nothing recorded. -/
theorem unrecorded_of_inv {s : State} (h : s.Inv = true) (hl : s.lifecycle ≠ .halted) : s.Unrecorded :=
  (recordConsistent_iff_unrecorded hl).1 ((State.inv_iff s).1 h).2.1

theorem Carries.unrecorded {s t : State} (h : Carries s t) (hs : s.Unrecorded) : t.Unrecorded :=
  ⟨h.reason.trans hs.reason, h.faultInfo.trans hs.faultInfo, h.diags.trans hs.diags⟩

/-- What a handler carries over keeps memory canonical and inside its regions. -/
theorem Carries.memory_ok {s t : State} (h : Carries s t) (hs : s.Inv = true) :
    t.mem.wf = true ∧ t.mem.inBounds t.cfg = true := by
  obtain ⟨⟨hwf, hbounds⟩, -⟩ := (State.inv_iff s).1 hs
  exact ⟨h.mem.1 hwf, by rw [h.cfg]; exact h.mem.2 hbounds⟩

/-- A running block that goes on keeps the invariant. -/
theorem Carries.inv {s t : State} (h : Carries s t) (hs : s.Inv = true) (hl : s.lifecycle = .running) : t.Inv = true := by
  have ht : t.lifecycle = .running := h.lifecycle.trans hl
  have hu : t.Unrecorded := h.unrecorded (unrecorded_of_inv hs (by simp [hl]))
  exact (State.inv_iff t).2 ⟨h.memory_ok hs, (recordConsistent_iff_unrecorded (by simp [ht])).2 hu,
    launchConsistent_of_running ht⟩

/-- The halt on a fault keeps the invariant, entered from what a handler carried over from a state not yet halted. -/
theorem Carries.inv_takeFault {s t : State} (h : Carries s t) (hs : s.Inv = true) (hl : s.lifecycle ≠ .halted)
    {p : Option Word} {d : FaultDetail} (hp : p.isNone = decide (d.kind = .oversizedProgram)) :
    (takeFault p d t).Inv = true :=
  (State.inv_iff _).2 ⟨h.memory_ok hs, recordConsistent_takeFault (h.unrecorded (unrecorded_of_inv hs hl)) hp,
    launchConsistent_of_halted rfl⟩

/-- The clean halt keeps the invariant. -/
theorem Carries.inv_takeExit {s t : State} (h : Carries s t) (hs : s.Inv = true) (hl : s.lifecycle ≠ .halted) :
    (takeExit t).Inv = true :=
  (State.inv_iff _).2 ⟨h.memory_ok hs, recordConsistent_takeExit (h.unrecorded (unrecorded_of_inv hs hl)),
    launchConsistent_of_halted rfl⟩

/-- Settles O59: each way a step of a running block ends keeps the invariant, and any other step changes nothing. -/
theorem stepKeepsTheInvariant : Obligations.StepKeepsTheInvariant := by
  intro s t hs hstep
  by_cases hl : s.lifecycle = .running
  · have hl' : s.lifecycle ≠ .halted := by simp [hl]
    rcases step_running_cases hl with ⟨u, hu, hc⟩ | ⟨d, u, hu, hc, hk⟩ | ⟨-, hu⟩ <;> cases hu.symm.trans hstep
    · exact hc.inv hs hl
    · exact hc.inv_takeFault hs hl' (by simp [hk])
    · exact ((Carries.refl s).setPc _).inv_takeExit hs hl'
  · cases (step_of_not_running hl).symm.trans hstep
    exact hs

/-- The block right after reset meets the invariant. -/
theorem inv_resetOf (c : Config) : (State.resetOf c).Inv = true :=
  (State.inv_iff _).2 ⟨⟨rfl, rfl⟩, rfl, (launchConsistent_iff_of_empty rfl).2 rfl⟩

/-- Settles O58: reset records nothing, and empty memory is canonical and inside any bounds. -/
theorem resetMeetsTheInvariant : Obligations.ResetMeetsTheInvariant :=
  ⟨inv_resetOf, inv_resetOf _⟩

/-- Load keeps the invariant: a block that it changes is as reset left it. -/
theorem inv_loadProgram {s : State} (bytes : List Byte) (hs : s.Inv = true) : (loadProgram bytes s).2.Inv = true := by
  unfold loadProgram
  split
  · rename_i hl
    obtain ⟨⟨hwf, hbounds⟩, hrec, hlaunch⟩ := (State.inv_iff s).1 hs
    have hu : s.Unrecorded := unrecorded_of_inv hs (by simp [hl])
    split
    · rename_i hfits
      obtain ⟨hwf', hbounds'⟩ := kept_setCells s.cfg s.mem .text (o := 0) (bytes := bytes) ((Nat.zero_add _).trans_le hfits)
      refine (State.inv_iff _).2 ⟨⟨hwf' hwf, hbounds' hbounds⟩, ?_, ?_⟩
      · exact (recordConsistent_iff_unrecorded (by simp)).2 ⟨hu.reason, hu.faultInfo, hu.diags⟩
      · rw [launchConsistent_iff_of_loaded rfl]
        rw [launchConsistent_iff_of_empty hl] at hlaunch
        rw [hlaunch]
        rfl
    · exact (Carries.refl s).inv_takeFault hs (by simp [hl]) rfl
  all_goals exact hs

/-- The run signal keeps the invariant. -/
theorem inv_runSignal {s : State} (hs : s.Inv = true) : (runSignal s).2.Inv = true := by
  unfold runSignal
  split
  · rename_i hl
    obtain ⟨hmem, -, -⟩ := (State.inv_iff s).1 hs
    have hu : s.Unrecorded := unrecorded_of_inv hs (by simp [hl])
    exact (State.inv_iff _).2 ⟨hmem, (recordConsistent_iff_unrecorded (by simp)).2 ⟨hu.reason, hu.faultInfo, hu.diags⟩,
      launchConsistent_of_running rfl⟩
  all_goals exact hs

/-- Observe changes nothing. -/
theorem observeBlock_state (s : State) : (observeBlock s).2 = s := by
  unfold observeBlock
  split <;> rfl

/-- Settles O60: one lemma for each command that changes the block. -/
theorem transactionsKeepTheInvariant : Obligations.TransactionsKeepTheInvariant := by
  intro c s hs
  cases c with
  | reset => exact inv_resetOf s.cfg
  | load bytes => exact inv_loadProgram bytes hs
  | execute => exact inv_runSignal hs
  | observe => exact (congrArg State.Inv (observeBlock_state s)).trans hs

end Sys2Proof.Machine
end

section
/-! The address space and the accessors (20_memory.md sections 1 to 5): one byte for every address, the round trips, the byte order,
and which accesses fault. -/

namespace Sys2Proof.Machine

theorem sizesLegal_iff (c : Config) :
    c.sizesLegal = true ↔ 1 ≤ c.stackSize ∧ 1 ≤ c.dataSize ∧ 1 ≤ c.textSize ∧ c.endAddr ≤ 2 ^ 32 - 8 := by
  simp only [Config.sizesLegal, Bool.and_eq_true, decide_eq_true_eq, and_assoc]

/-- The address of an offset of a region does not wrap. -/
theorem toNat_ofNat_region {c : Config} (hc : c.sizesLegal = true) {r : Region} {o : Nat} (ho : o < c.sizeOf r) :
    (BitVec.ofNat 32 (c.baseOf r + o)).toNat = c.baseOf r + o := by
  obtain ⟨-, -, -, hend⟩ := (sizesLegal_iff c).1 hc
  have := lt_endAddr ho
  rw [BitVec.toNat_ofNat]
  omega

/-- An offset of a region is the translation of its base plus the offset. -/
theorem translateAddr_ofNat {c : Config} (hc : c.sizesLegal = true) {r : Region} {o : Nat} (ho : o < c.sizeOf r) :
    translateAddr c (BitVec.ofNat 32 (c.baseOf r + o)) = some (r, o) :=
  (translate_eq_some_iff ..).2 ⟨ho, (toNat_ofNat_region hc ho).symm⟩

theorem translateWord_ofNat {c : Config} (hc : c.sizesLegal = true) {r : Region} {o : Nat} (ho : o + 3 < c.sizeOf r) :
    translateWord c (BitVec.ofNat 32 (c.baseOf r + o)) = some (r, o) :=
  (translateWord_eq_some_iff ..).2 ⟨ho, (toNat_ofNat_region hc (Nat.lt_of_add_right_lt ho)).symm⟩

/-- Two addresses with one translation are equal. -/
theorem translateAddr_injective {c : Config} {a b : Word} {r : Region} {o : Nat} (ha : translateAddr c a = some (r, o))
    (hb : translateAddr c b = some (r, o)) : b = a := by
  obtain ⟨-, ha⟩ := (translate_eq_some_iff ..).1 ha
  obtain ⟨-, hb⟩ := (translate_eq_some_iff ..).1 hb
  exact BitVec.eq_of_toNat_eq (hb.symm.trans ha)

/-- Settles O2: base plus offset is the address of a region's byte, and the translator answers a pair in range below `END`. -/
theorem eachAddressIsBackedByOneRegionByte : Obligations.EachAddressIsBackedByOneRegionByte := by
  refine fun c hc => ⟨fun r o ho => ?_, fun a ha => ?_, fun a => (translate_eq_none_iff c a).2⟩
  · have htranslate := translateAddr_ofNat hc ho
    exact ⟨_, htranslate, fun b hb => translateAddr_injective htranslate hb⟩
  · rcases translate_spec c a with ⟨r, o, htranslate, ho, -⟩ | ⟨-, hend⟩
    · exact ⟨r, o, htranslate, ho⟩
    · exact absurd ha (not_lt.2 hend)

/-- A word fits where the translation of its first byte leaves room for three more in the region. -/
theorem wordFits_of_translateAddr {c : Config} {a : Word} {r : Region} {o : Nat} (h : translateAddr c a = some (r, o))
    (ho : o + 3 < c.sizeOf r) : wordFits c a = true := by
  obtain ⟨-, hbase⟩ := (translate_eq_some_iff ..).1 h
  exact (wordFits_iff_translateWord c a).2 ⟨r, o, (translateWord_eq_some_iff ..).2 ⟨ho, hbase⟩⟩

/-- Settles O3: a write that fits stores its value, by the laws of the two write accessors. -/
theorem accessorRoundTripLaws : Obligations.AccessorRoundTripLaws := by
  refine fun s a hwf => ⟨fun v ha => ?_, fun w r o htranslate ho => ?_⟩
  · obtain ⟨m, hwrite, -, hstored, -⟩ := writeByte_of_fits v ha
    exact ⟨_, hwrite, hstored hwf⟩
  · obtain ⟨m, hwrite, -, hstored, -⟩ := writeWord_of_fits w (wordFits_of_translateAddr htranslate ho)
    exact ⟨_, hwrite, hstored hwf⟩

/-- Byte `k` of a word that translates is the byte `k` further on in the same region. -/
theorem readByte_add_of_translateWord {s : State} {a : Word} {r : Region} {o : Nat} (hc : s.cfg.sizesLegal = true)
    (h : translateWord s.cfg a = some (r, o)) {k : Nat} (hk : k < 4) :
    readByte s (a + BitVec.ofNat 32 k) = .value (cellAt (s.mem.cells r) (o + k)) := by
  obtain ⟨ho, hbase⟩ := (translateWord_eq_some_iff ..).1 h
  obtain ⟨-, -, -, hend⟩ := (sizesLegal_iff s.cfg).1 hc
  have hlt : s.cfg.baseOf r + (o + k) < s.cfg.endAddr := lt_endAddr (by omega)
  have htranslate : translateAddr s.cfg (a + BitVec.ofNat 32 k) = some (r, o + k) := by
    refine (translate_eq_some_iff ..).2 ⟨by omega, ?_⟩
    rw [toNat_add_of_lt a (by omega)]
    omega
  simp only [readByte, htranslate]

/-- Byte `k` after a text-local offset, where it is still in the text region. -/
theorem textReadByte_add {s : State} {off : Word} (hc : s.cfg.sizesLegal = true) {k : Nat}
    (h : off.toNat + k < s.cfg.textSize) :
    textReadByte s (off + BitVec.ofNat 32 k) = .value (cellAt s.mem.text (off.toNat + k)) := by
  obtain ⟨-, -, -, hend⟩ := (sizesLegal_iff s.cfg).1 hc
  simp only [Config.endAddr] at hend
  have hoff := toNat_add_of_lt off (k := k) (by omega)
  rw [← hoff, textReadByte_of_lt (by omega)]

/-- A word that is read is made of the four bytes read one by one. -/
theorem bytes_of_readWord {s : State} {a w : Word} (hc : s.cfg.sizesLegal = true) (h : readWord s a = .value w) :
    ∃ b0 b1 b2 b3, readByte s a = .value b0 ∧ readByte s (a + 1) = .value b1 ∧ readByte s (a + 2) = .value b2 ∧
      readByte s (a + 3) = .value b3 ∧ w = wordOfBytes b0 b1 b2 b3 := by
  rcases readWord_spec s a with ⟨r, o, htranslate, hread⟩ | ⟨-, hraise⟩
  · have hbyte := @readByte_add_of_translateWord s a r o hc htranslate
    cases hread.symm.trans h
    exact ⟨_, _, _, _, by simpa using hbyte (k := 0) (by omega), hbyte (k := 1) (by omega), hbyte (k := 2) (by omega),
      hbyte (k := 3) (by omega), rfl⟩
  · cases hraise.symm.trans h

/-- Four bytes read one by one make the word read where it fits. -/
theorem readWord_of_bytes {s : State} {a : Word} {b0 b1 b2 b3 : Byte} (hc : s.cfg.sizesLegal = true)
    (hfits : wordFits s.cfg a = true) (h0 : readByte s a = .value b0) (h1 : readByte s (a + 1) = .value b1)
    (h2 : readByte s (a + 2) = .value b2) (h3 : readByte s (a + 3) = .value b3) :
    readWord s a = .value (wordOfBytes b0 b1 b2 b3) := by
  obtain ⟨w, hw⟩ := readWord_of_fits hfits
  obtain ⟨c0, c1, c2, c3, h0', h1', h2', h3', rfl⟩ := bytes_of_readWord hc hw
  cases h0.symm.trans h0'
  cases h1.symm.trans h1'
  cases h2.symm.trans h2'
  cases h3.symm.trans h3'
  exact hw

/-- A word of the text is made of the four bytes read one by one. -/
theorem bytes_of_textReadWord {s : State} {off w : Word} (hc : s.cfg.sizesLegal = true)
    (h : textReadWord s off = .value w) :
    ∃ b0 b1 b2 b3, textReadByte s off = .value b0 ∧ textReadByte s (off + 1) = .value b1 ∧
      textReadByte s (off + 2) = .value b2 ∧ textReadByte s (off + 3) = .value b3 ∧ w = wordOfBytes b0 b1 b2 b3 := by
  by_cases hfits : off.toNat + 4 ≤ s.cfg.textSize
  · cases (textReadWord_of_le hfits).symm.trans h
    have hbyte := @textReadByte_add s off hc
    exact ⟨_, _, _, _, textReadByte_of_lt (by omega), hbyte (k := 1) (by omega), hbyte (k := 2) (by omega),
      hbyte (k := 3) (by omega), rfl⟩
  · cases (textReadWord_of_lt (not_le.1 hfits)).symm.trans h

/-- Settles O4: a word that either read answers is made of its four bytes, the first weighing most. -/
theorem wordsAreBigEndian : Obligations.WordsAreBigEndian := by
  refine fun s a hc => ⟨fun w hread => ?_, fun w hread => ?_⟩
  · obtain ⟨b0, b1, b2, b3, h0, h1, h2, h3, rfl⟩ := bytes_of_readWord hc hread
    exact ⟨b0, b1, b2, b3, h0, h1, h2, h3, toNat_wordOfBytes ..⟩
  · obtain ⟨b0, b1, b2, b3, h0, h1, h2, h3, rfl⟩ := bytes_of_textReadWord hc hread
    exact ⟨b0, b1, b2, b3, h0, h1, h2, h3, toNat_wordOfBytes ..⟩

theorem byteFits_iff (c : Config) (a : Word) : byteFits c a = true ↔ a.toNat < c.endAddr := decide_eq_true_iff

theorem byteFits_eq_false_iff (c : Config) (a : Word) : byteFits c a = false ↔ c.endAddr ≤ a.toNat :=
  decide_eq_false_iff_not.trans not_lt

theorem readByte_isValue_iff (s : State) (a : Word) : (∃ v, readByte s a = .value v) ↔ byteFits s.cfg a = true := by
  refine ⟨fun ⟨v, hv⟩ => ?_, fun h => readByte_of_fits ((byteFits_iff ..).1 h)⟩
  by_contra hfits
  rw [readByte_of_not_fits ((byteFits_eq_false_iff ..).1 (by simpa using hfits))] at hv
  cases hv

theorem readWord_isValue_iff (s : State) (a : Word) : (∃ w, readWord s a = .value w) ↔ wordFits s.cfg a = true := by
  refine ⟨fun ⟨w, hw⟩ => ?_, readWord_of_fits⟩
  by_contra hfits
  rw [readWord_of_not_fits (by simpa using hfits)] at hw
  cases hw

/-- Settles O5: for each width and each kind of access, the two ways the accessor ends. -/
theorem accessOutsideOneRegionRaises : Obligations.AccessOutsideOneRegionRaises := by
  refine fun s a => ⟨readByte_isValue_iff s a, fun hfits v => ?_, fun hfits => ?_, readWord_isValue_iff s a,
    fun hfits w => ?_, fun hfits => ⟨readWord_of_not_fits hfits, fun w => writeWord_of_not_fits w hfits⟩⟩
  · obtain ⟨m, hwrite, -⟩ := writeByte_of_fits v ((byteFits_iff ..).1 hfits)
    exact ⟨_, hwrite⟩
  · have hend := (byteFits_eq_false_iff ..).1 hfits
    exact ⟨readByte_of_not_fits hend, fun v => writeByte_of_not_fits v hend⟩
  · obtain ⟨m, hwrite, -⟩ := writeWord_of_fits w hfits
    exact ⟨_, hwrite⟩

/-- A text-local byte read in the text region is the global one at `TEXT_BASE` plus the offset. -/
theorem textReadByte_eq_readByte {s : State} {off : Word} (hc : s.cfg.sizesLegal = true)
    (h : off.toNat < s.cfg.textSize) :
    textReadByte s off = readByte s (BitVec.ofNat 32 (s.cfg.textBase + off.toNat)) := by
  have htranslate : translateAddr s.cfg (BitVec.ofNat 32 (s.cfg.textBase + off.toNat)) = some (.text, off.toNat) :=
    translateAddr_ofNat hc (r := .text) h
  rw [textReadByte_of_lt h]
  simp only [readByte, htranslate, Memory.cells]

/-- A text-local word read in the text region is the global one at `TEXT_BASE` plus the offset. -/
theorem textReadWord_eq_readWord {s : State} {off : Word} (hc : s.cfg.sizesLegal = true)
    (h : off.toNat + 4 ≤ s.cfg.textSize) :
    textReadWord s off = readWord s (BitVec.ofNat 32 (s.cfg.textBase + off.toNat)) := by
  have htranslate : translateWord s.cfg (BitVec.ofNat 32 (s.cfg.textBase + off.toNat)) = some (.text, off.toNat) :=
    translateWord_ofNat hc (r := .text) h
  rw [textReadWord_of_le h]
  simp only [readWord, htranslate, Memory.cells]

/-- Settles O6: for each width, both sides of the bound. -/
theorem textReadsStayInTheTextRegion : Obligations.TextReadsStayInTheTextRegion := fun _ _ hc =>
  ⟨fun h => ⟨textReadByte_eq_readByte hc h, textReadByte_fits h⟩, fun h => textReadByte_of_le (Nat.le_of_lt_succ h),
    fun h => ⟨textReadWord_eq_readWord hc h, textReadWord_fits h⟩, textReadWord_of_lt⟩

/-- Settles O51: the byte stored reads back at its address, which is what the text-local read and the fetch read. -/
theorem storeIntoTextIsFetched : Obligations.StoreIntoTextIsFetched := by
  intro s off v hwf hc hoff
  have hfits : (BitVec.ofNat 32 (s.cfg.textBase + off.toNat)).toNat < s.cfg.endAddr := by
    have haddr : (BitVec.ofNat 32 (s.cfg.textBase + off.toNat)).toNat = s.cfg.textBase + off.toNat :=
      toNat_ofNat_region hc (r := .text) hoff
    rw [haddr]
    exact lt_endAddr (r := .text) hoff
  obtain ⟨m, hwrite, -, hstored, -⟩ := writeByte_of_fits v hfits
  have hread : textReadByte { s with mem := m } off = .value v :=
    (textReadByte_eq_readByte (s := { s with mem := m }) hc hoff).trans (hstored hwf).1
  exact ⟨_, hwrite, hread, hread⟩

end Sys2Proof.Machine
end

section
/-! The dispatcher (40_dispatch.md sections 1 and 2): what stands in the text at `pc`, the step that runs it, the two ways the fetch
halts the block, and the idle dispatcher. -/

namespace Sys2Proof.Machine

theorem textHolds_cons_iff (s : State) (off : Nat) (b : Byte) (rest : List Byte) :
    textHolds s off (b :: rest) = true ↔
      off < s.cfg.textSize ∧ cellAt s.mem.text off = b ∧ textHolds s (off + 1) rest = true := by
  simp only [textHolds, Bool.and_eq_true, decide_eq_true_eq, beq_iff_eq, and_assoc]

theorem textReadByte_of_textHolds {s : State} {off : Word} {b : Byte} {rest : List Byte}
    (h : textHolds s off.toNat (b :: rest) = true) : textReadByte s off = .value b := by
  obtain ⟨hlt, rfl, -⟩ := (textHolds_cons_iff ..).1 h
  exact textReadByte_of_lt hlt

theorem textReadWord_of_textHolds {s : State} {off : Word} {b0 b1 b2 b3 : Byte} {rest : List Byte}
    (h : textHolds s off.toNat (b0 :: b1 :: b2 :: b3 :: rest) = true) :
    textReadWord s off = .value (wordOfBytes b0 b1 b2 b3) := by
  simp only [textHolds_cons_iff] at h
  obtain ⟨-, rfl, -, rfl, -, rfl, hlt, rfl, -⟩ := h
  exact textReadWord_of_le hlt

/-- The offset past an opcode byte of the text does not wrap. -/
theorem toNat_pc_add_one {s : State} (hc : s.cfg.sizesLegal = true) (h : s.pc.toNat < s.cfg.textSize) :
    (s.pc + 1).toNat = s.pc.toNat + 1 := by
  obtain ⟨-, -, -, hend⟩ := (sizesLegal_iff s.cfg).1 hc
  simp only [Config.endAddr] at hend
  exact toNat_add_of_lt s.pc (k := 1) (by omega)

theorem op_of_decodeOperand {i : Instr} {bytes rest : List Byte} {a : AsmInstr}
    (h : decodeOperand i bytes = .instr a rest) : a.op = i := by
  unfold decodeOperand at h
  split at h <;> cases h <;> rfl

/-- What decodes is the opcode byte of an instruction that `decodeOpcode` selects, its operand's bytes, and the rest. -/
theorem shape_of_decode {m : OpcodeMap} {bytes rest : List Byte} {a : AsmInstr} (h : decode m bytes = .instr a rest) :
    ∃ op, decodeOpcode m op = some a.op ∧ bytes = op :: (encodeOperand a.operand ++ rest) := by
  obtain ⟨-, rfl⟩ := encode_of_decode h
  refine ⟨m.byteOf a.op, ?_, rfl⟩
  simp only [encode, List.cons_append, decode] at h
  split at h
  · cases h
  · rename_i i hi
    rw [hi, op_of_decodeOperand h]

/-- Settles O14: the byte fetched selects the instruction, and the bytes after it are the encoding of its operand, which the
handler's read of the operand puts together again. -/
theorem stepRunsTheDecodedInstruction : Obligations.StepRunsTheDecodedInstruction := by
  intro s bytes rest a hrun hc htext hdecode
  obtain ⟨op, hop, rfl⟩ := shape_of_decode hdecode
  obtain ⟨hlt, -, hoperand⟩ := (textHolds_cons_iff ..).1 htext
  rw [← toNat_pc_add_one hc hlt] at hoperand
  refine ⟨step_of_decoded hrun (textReadByte_of_textHolds htext) hop, fun imm himm => ?_, fun off hoff => ?_⟩
  · rw [himm] at hoperand
    rw [textReadWord_of_textHolds hoperand, wordOfBytes_byteOfWord]
  · rw [hoff] at hoperand
    exact textReadByte_of_textHolds hoperand

/-- Settles O15: the fetch raises, so the step halts with `pc` where it was. -/
theorem fetchBeyondTheTextRegionFaults : Obligations.FetchBeyondTheTextRegionFaults := fun _ hrun hpc =>
  step_of_fetch_raise hrun (textReadByte_of_le hpc)

/-- Settles O16: a byte that the map gives no instruction decodes to none. -/
theorem unknownOpcodeHalts : Obligations.UnknownOpcodeHalts := fun _ hrun hpc hunknown =>
  step_of_undecoded hrun (textReadByte_of_lt hpc) ((decodeOpcode_eq_none_iff ..).2 hunknown)

/-- IMM with its operand read. -/
theorem exec_imm_of_operand {s : State} {imm : Word} (h : textReadWord s s.pc = .value imm) :
    exec .imm s = .next { s with ax := imm, pc := s.pc + 4 } :=
  concludeHandler_andThen_of_value h ..

/-- Settles O36: the five bytes decode, under the default map, to IMM of the word made of the last four. -/
theorem zeroByteRunsAsImm : Obligations.ZeroByteRunsAsImm := by
  intro s b0 b1 b2 x hrun hmap hc htext
  have hdecode : decode s.cfg.opcodeMap [0x00, b0, b1, b2, x] =
      .instr ⟨.imm, .word (wordOfBytes b0 b1 b2 x).toNat⟩ [] := by
    rw [hmap]
    rfl
  obtain ⟨hstep, hword, -⟩ := stepRunsTheDecodedInstruction s _ _ _ hrun hc htext hdecode
  have hread : textReadWord s (s.pc + 1) = .value (wordOfBytes b0 b1 b2 x) := by
    rw [hword _ rfl, BitVec.ofNat_toNat, BitVec.setWidth_eq]
  refine ⟨wordOfBytes b0 b1 b2 x, ?_, ?_⟩
  · rw [toNat_wordOfBytes]
    omega
  · rw [hstep, exec_imm_of_operand (s := { s with pc := s.pc + 1 }) hread, BitVec.add_assoc]
    rfl

/-- A machine whose step leads from a state to that state stays there, however many steps it is given. -/
theorem run_of_step_self (M : Host.Core) {s : M.State} (h : M.step s = .next s) (n : Nat) : M.run n s = .next s := by
  induction n with
  | zero => rfl
  | succ n ih => simpa only [Host.Core.run, h] using ih

/-- Outside `Running` every step of a run is idle. -/
theorem core_run_of_not_running {s : State} (h : s.lifecycle ≠ .running) (n : Nat) :
    Sys2Proof.core.run n s = .next s :=
  run_of_step_self Sys2Proof.core (step_of_not_running h) n

/-- Settles O18: the halt entry is the record written, and leaves the block outside `Running`. -/
theorem faultHaltEntry : Obligations.FaultHaltEntry := fun _ _ _ =>
  ⟨rfl, core_run_of_not_running (by simp)⟩

/-- Settles O19: by induction on the number of steps. -/
theorem dispatcherIsIdleOutsideRunning : Obligations.DispatcherIsIdleOutsideRunning := fun _ n h =>
  core_run_of_not_running h n

/-- Settles O52: a running step carries the configuration over, any other changes nothing; no host command writes it. -/
theorem configurationNeverChanges : Obligations.ConfigurationNeverChanges := by
  refine ⟨fun s t hstep => ?_, fun c s => ?_⟩
  · by_cases hrun : s.lifecycle = .running
    · rcases step_running_cases hrun with ⟨u, hu, hc⟩ | ⟨d, u, hu, hc, -⟩ | ⟨-, hu⟩ <;> cases hu.symm.trans hstep
      · exact hc.cfg
      · exact hc.cfg
      · rfl
    · cases (step_of_not_running hrun).symm.trans hstep
      rfl
  · cases c with
    | reset => rfl
    | load bytes =>
      simp only [transact, loadProgram]
      split
      · split <;> rfl
      all_goals rfl
    | execute =>
      simp only [transact, runSignal]
      split <;> rfl
    | observe => exact congrArg State.cfg (observeBlock_state s)

end Sys2Proof.Machine
end

section
/-! LC, SC and PUSH (41_load_store.md R101, R103, R105). -/

namespace Sys2Proof.Machine

theorem toNat_zext32 (b : Byte) : (zext32 b).toNat = b.toNat :=
  BitVec.toNat_setWidth_of_le (by decide)

/-- Settles O22: the read at `ax` is the one check of the handler. -/
theorem lcLoadsAByteZeroExtended : Obligations.LcLoadsAByteZeroExtended := by
  refine fun s => ⟨fun hlt => ?_, fun hend => ?_⟩
  · obtain ⟨b, hread⟩ := readByte_of_fits hlt
    exact ⟨b, zext32 b, hread, toNat_zext32 b, concludeHandler_andThen_of_value hread ..⟩
  · exact concludeHandler_andThen_of_raise (readByte_of_not_fits hend) ..

/-- Settles O24: `write_byte` stores the low byte at `sp` and answers it; where it does not fit, its fault ends the handler. -/
theorem scStoresTheLowByte : Obligations.ScStoresTheLowByte := by
  refine fun s => ⟨fun hwf hlt => ?_, fun hend => ?_⟩
  · obtain ⟨m, hwrite, -, hstored, -⟩ := writeByte_of_fits (a := storeAddress s) (s.ax.setWidth 8) hlt
    refine ⟨m, zext32 (s.ax.setWidth 8), ?_, ?_, concludeHandler_andThen_of_value hwrite ..⟩
    · rw [toNat_zext32, BitVec.toNat_setWidth]
    · rw [BitVec.ofNat_toNat]
      exact hstored hwf
  · exact concludeHandler_andThen_of_raise (writeByte_of_not_fits _ hend) ..

theorem exec_push (s : State) : exec .push s = concludeHandler s (pushWord s s.ax .proceed) := rfl

/-- Settles O26: the push is all the handler does. -/
theorem pushLowersSpAndStores : Obligations.PushLowersSpAndStores := by
  refine fun s => ⟨?_, fun hwf hfits => ?_, fun hfits => ?_⟩
  · cases hstride : s.cfg.pushStride <;> simp only [pushAddress, hstride, PushStride.bytes]
  · obtain ⟨m, hpush, -, hstored, -⟩ := pushWord_of_fits s.ax .proceed hfits
    exact ⟨m, hstored hwf, by rw [exec_push, hpush, concludeHandler_proceed]⟩
  · rw [exec_push, pushWord_of_not_fits s.ax .proceed hfits, concludeHandler_fault]

end Sys2Proof.Machine
end

section
/-! Control transfer and frames (42_control_frame.md): JZ, JNZ, CALL, ENT, ADJ, LEV, LEA. -/

namespace Sys2Proof.Machine

/-- What JZ and JNZ both do: jump on a zero accumulator, else pass over the operand. -/
def jumpIfZero (s : State) : HandlerResult :=
  if axIsZero s then performJmp s else .proceed (skipWord s)

theorem jumpIfZero_of_ne {s : State} (h : s.ax ≠ 0) : jumpIfZero s = .proceed (skipWord s) :=
  if_neg (by simpa only [axIsZero, beq_iff_eq] using h)

theorem jumpIfZero_of_eq {s : State} (h : s.ax = 0) : jumpIfZero s = performJmp s :=
  if_pos (beq_iff_eq.2 h)

/-- JNZ tests the negated condition and swaps the branches. -/
theorem exec_jz_jnz {i : Instr} (hi : i = .jz ∨ i = .jnz) (s : State) :
    exec i s = concludeHandler s (jumpIfZero s) := by
  rcases hi with rfl | rfl
  · rfl
  · show concludeHandler s (if !axIsZero s then .proceed (skipWord s) else performJmp s) = _
    rw [jumpIfZero]
    cases axIsZero s <;> rfl

/-- Settles O28: by the accumulator, then by the two ways "perform JMP" ends. -/
theorem jzAndJnzJumpOnZero : Obligations.JzAndJnzJumpOnZero := by
  refine fun i s hi => ⟨fun hax => ?_, fun hax hle => ?_, fun hax hlt => ?_⟩
  · rw [exec_jz_jnz hi, jumpIfZero_of_ne hax, concludeHandler_proceed]
    rfl
  · obtain ⟨target, hread, hjump⟩ := performJmp_of_fits hle
    exact ⟨target, hread, by rw [exec_jz_jnz hi, jumpIfZero_of_eq hax, hjump, concludeHandler_proceed]⟩
  · rw [exec_jz_jnz hi, jumpIfZero_of_eq hax, performJmp_of_not_fits hlt, concludeHandler_fault]

/-- Settles O31: the operand read is the one check of the handler. -/
theorem adjRaisesSp : Obligations.AdjRaisesSp := by
  refine fun s => ⟨fun hle => ?_, fun hlt => ?_⟩
  · obtain ⟨n, hread⟩ := textReadWord_fits hle
    exact ⟨n, hread, concludeHandler_andThen_of_value hread ..⟩
  · exact concludeHandler_andThen_of_raise (textReadWord_of_lt hlt) ..

theorem exec_call (s : State) : exec .call s = concludeHandler s (pushWord s s.pc performJmp) := rfl

/-- Settles O29: the push, then, on the state it leaves, "perform JMP". -/
theorem callPushesTheLinkThenJumps : Obligations.CallPushesTheLinkThenJumps := by
  refine fun s => ⟨fun hwf hfits => ?_, fun hfits => ?_⟩
  · obtain ⟨m, hpush, -, hstored, -⟩ := pushWord_of_fits s.pc performJmp hfits
    refine ⟨m, hstored hwf, fun hle => ?_, fun hlt => ?_⟩
    · obtain ⟨target, hread, hjump⟩ := performJmp_of_fits (s := { s with sp := pushAddress s, mem := m }) hle
      exact ⟨target, hread, by rw [exec_call, hpush, hjump, concludeHandler_proceed]⟩
    · rw [exec_call, hpush, performJmp_of_not_fits (s := { s with sp := pushAddress s, mem := m }) hlt,
        concludeHandler_fault]
  · rw [exec_call, pushWord_of_not_fits s.pc performJmp hfits, concludeHandler_fault]

/-- The part of ENT after the push: `bp` becomes `sp`, which is lowered by the operand word. -/
def openFrame (pushed : State) : HandlerResult :=
  (operandWord (pushed.setBp pushed.sp)).andThen (pushed.setBp pushed.sp) fun n =>
    .proceed (skipWord ((pushed.setBp pushed.sp).setSp (pushed.sp - n)))

theorem exec_ent (s : State) : exec .ent s = concludeHandler s (pushWord s s.bp openFrame) := rfl

/-- Settles O30: the push, then, on the state it leaves, the read of the operand. -/
theorem entOpensAFrame : Obligations.EntOpensAFrame := by
  refine fun s => ⟨fun hwf hfits => ?_, fun hfits => ?_⟩
  · obtain ⟨m, hpush, -, hstored, -⟩ := pushWord_of_fits s.bp openFrame hfits
    refine ⟨m, hstored hwf, fun hle => ?_, fun hlt => ?_⟩
    · obtain ⟨n, hread⟩ := textReadWord_fits (s := { s with mem := m }) hle
      refine ⟨n, hread, ?_⟩
      rw [exec_ent, hpush]
      exact concludeHandler_andThen_of_value hread ..
    · rw [exec_ent, hpush]
      exact concludeHandler_andThen_of_raise (textReadWord_of_lt (s := { s with mem := m }) hlt) ..
  · rw [exec_ent, pushWord_of_not_fits s.bp openFrame hfits, concludeHandler_fault]

theorem add_four_add_four (w : Word) : w + 4 + 4 = w + 8 := BitVec.add_assoc w 4 4

/-- The second half of LEV, in the state where `bp` is restored: the link is popped into `pc`. -/
def returnToLink (restored : State) : HandlerResult :=
  popWord restored fun link popped => .proceed (popped.setPc link)

/-- LEV is two pops from `bp` on: the saved `bp`, then the link. -/
theorem exec_lev (s : State) :
    exec .lev s = concludeHandler s
      (popWord (s.setSp s.bp) fun savedBp popped => returnToLink (popped.setBp savedBp)) := rfl

/-- Settles O32: by the two pops. -/
theorem levRestoresTheFrame : Obligations.LevRestoresTheFrame := by
  intro s
  have hfirst (hfits : wordFits s.cfg s.bp = true) : ∃ savedBp, readWord s s.bp = .value savedBp ∧
      exec .lev s = concludeHandler s (returnToLink { s with bp := savedBp, sp := s.bp + 4 }) := by
    obtain ⟨savedBp, hread, hpop⟩ := popWord_of_fits (s := s.setSp s.bp)
      (fun savedBp popped => returnToLink (popped.setBp savedBp)) hfits
    exact ⟨savedBp, hread, by rw [exec_lev, hpop]; rfl⟩
  refine ⟨fun hfits hfits' => ?_, fun hfits hfits' => ?_, fun hfits => ?_⟩
  · obtain ⟨savedBp, hread, hexec⟩ := hfirst hfits
    obtain ⟨link, hlink, hpop⟩ := popWord_of_fits (s := { s with bp := savedBp, sp := s.bp + 4 })
      (fun link popped => .proceed (popped.setPc link)) hfits'
    refine ⟨savedBp, link, hread, hlink, ?_⟩
    rw [hexec, returnToLink, hpop, concludeHandler_proceed, ← add_four_add_four]
    rfl
  · obtain ⟨savedBp, hread, hexec⟩ := hfirst hfits
    refine ⟨savedBp, hread, ?_⟩
    rw [hexec, returnToLink, popWord_of_not_fits (s := { s with bp := savedBp, sp := s.bp + 4 }) _ hfits',
      concludeHandler_fault]
  · rw [exec_lev, popWord_of_not_fits (s := s.setSp s.bp) _ hfits, concludeHandler_fault]
    rfl

/-- An address that meets LEA's equation is the frame address. -/
theorem eq_frameAddress {s : State} {off : Byte} {a : Word}
    (h : (a.toNat : Int) = (s.bp.toNat + off.toInt * 4) % 2 ^ 32) : a = frameAddress s off :=
  BitVec.eq_of_toNat_eq (Int.ofNat_inj.1 (h.trans (toNat_frameAddress s off).symm))

/-- LEA with its operand byte read: the rest of the handler is the read at the frame address, with `pc` past the byte. -/
theorem exec_lea_of_operand {s : State} {off : Byte} (h : textReadByte s s.pc = .value off) :
    exec .lea s = concludeHandler s ((readWord (skipByte s) (frameAddress s off)).andThen (skipByte s) fun w =>
      .proceed ((skipByte s).setAx w)) :=
  concludeHandler_andThen_of_value h ..

/-- Settles O33: the operand read, then the data read at the address the operand gives. -/
theorem leaLoadsAFrameWord : Obligations.LeaLoadsAFrameWord := by
  refine fun s => ⟨fun hlt => ?_, fun hle => ?_⟩
  · obtain ⟨off, hoff⟩ := textReadByte_fits hlt
    refine ⟨off, hoff, fun a ha => ?_⟩
    rw [eq_frameAddress ha, exec_lea_of_operand hoff]
    refine ⟨fun hfits => ?_, fun hfits => ?_⟩
    · obtain ⟨w, hread⟩ := readWord_of_fits hfits
      exact ⟨w, hread, concludeHandler_andThen_of_value (r := readWord (skipByte s) _) hread ..⟩
    · exact concludeHandler_andThen_of_raise (readWord_of_not_fits (s := skipByte s) hfits) ..
  · exact concludeHandler_andThen_of_raise (textReadByte_of_le hle) ..

end Sys2Proof.Machine
end

section
/-! The binary operators whose result or fault is a choice of the spec (43_binary_ops.md R146 to R151, R155, R156). -/

namespace Sys2Proof.Machine

theorem truthWord_decide (p : Prop) [Decidable p] : truthWord (decide p) = if p then 1 else 0 := by
  simp only [truthWord, decide_eq_true_eq]

/-- Settles O39: the word delivered is the truth word of the comparison of the two numbers, over the skeleton. -/
theorem orderingOperators : Obligations.OrderingOperators :=
  ⟨binaryOperator_of_total (fun _ => rfl) fun _ _ => truthWord_decide _,
    binaryOperator_of_total (fun _ => rfl) fun _ _ => truthWord_decide _,
    binaryOperator_of_total (fun _ => rfl) fun _ _ => truthWord_decide _,
    binaryOperator_of_total (fun _ => rfl) fun _ _ => truthWord_decide _⟩

theorem checkedShift_of_lt {count : Word} (shifted : Word) (h : count.toNat < 32) :
    checkedShift shifted count = .value shifted := if_neg (not_le.2 h)

theorem checkedShift_of_le {count : Word} (shifted : Word) (h : 32 ≤ count.toNat) :
    checkedShift shifted count = .raise (.shiftCount count) := if_pos h

theorem checkedDivision_of_ne {divisor : Word} (result : Word) (h : divisor ≠ 0) :
    checkedDivision result divisor = .value result := if_neg h

theorem checkedDivision_of_eq {divisor : Word} (result : Word) (h : divisor = 0) :
    checkedDivision result divisor = .raise .divideByZero := if_pos h

/-- Settles O40: a shift by a count that passes the check multiplies or divides by a power of two, over the skeleton. -/
theorem shiftsBelowThirtyTwo : Obligations.ShiftsBelowThirtyTwo :=
  ⟨binaryOperator_of_delivers (fun _ => rfl) fun left ax hax =>
      ⟨_, checkedShift_of_lt _ hax, by rw [BitVec.toNat_shiftLeft, Nat.shiftLeft_eq]⟩,
    binaryOperator_of_delivers (fun _ => rfl) fun left ax hax =>
      ⟨_, checkedShift_of_lt _ hax, by rw [BitVec.toNat_ushiftRight, Nat.shiftRight_eq_div_pow]⟩⟩

theorem toNat_pos_of_ne_zero {w : Word} (h : w ≠ 0) : 0 < w.toNat :=
  Nat.pos_of_ne_zero fun h0 => h (BitVec.eq_of_toNat_eq h0)

/-- Settles O42: a division by a divisor that passes the check is the one of the numbers, over the skeleton. -/
theorem divModByNonzero : Obligations.DivModByNonzero :=
  ⟨binaryOperator_of_delivers (fun _ => rfl) fun left ax hax =>
      ⟨_, checkedDivision_of_ne _ hax, BitVec.toNat_udiv⟩,
    binaryOperator_of_delivers (fun _ => rfl) fun left ax hax =>
      ⟨_, checkedDivision_of_ne _ hax, BitVec.toNat_umod, by
        rw [BitVec.toNat_umod]
        exact Nat.mod_lt _ (toNat_pos_of_ne_zero hax)⟩⟩

/-- The skeleton R140 with an operator function that raises: its fault is taken after the pop, with `ax` as it was. -/
theorem exec_of_operator_raises {i : Instr} {f : Word → Word → Checked Word} {s : State} {d : FaultDetail}
    (hexec : exec i s = concludeHandler s (binaryOp f s)) (hfits : wordFits s.cfg s.sp = true)
    (hraise : ∀ left, f left s.ax = .raise d) :
    exec i s = .next (takeFault (some (s.pc - 1)) d { s with sp := s.sp + 4 }) := by
  obtain ⟨left, -, hop⟩ := binaryOp_of_fits f hfits
  rw [hexec, hop, concludeHandler_andThen_of_raise (hraise left)]

/-- Settles O43: for each of the four operators, its check raises whatever word was popped. -/
theorem operatorFaultsComeAfterThePop : Obligations.OperatorFaultsComeAfterThePop := by
  refine fun s hfits => ⟨fun i hi hax => ?_, fun i hi hax => ?_⟩
  · rcases hi with rfl | rfl
    · exact exec_of_operator_raises (f := opShl) rfl hfits fun _ => checkedShift_of_le _ hax
    · exact exec_of_operator_raises (f := opShr) rfl hfits fun _ => checkedShift_of_le _ hax
  · rcases hi with rfl | rfl
    · exact exec_of_operator_raises (f := opDiv) rfl hfits fun _ => checkedDivision_of_eq _ hax
    · exact exec_of_operator_raises (f := opMod) rfl hfits fun _ => checkedDivision_of_eq _ hax

end Sys2Proof.Machine
end

section
/-! The seven reserved opcodes and EXIT (44_hostcall_reserved.md). -/

namespace Sys2Proof.Machine

/-- Settles O44: `ReservedOpcode` is all that the handler of each of the seven does. -/
theorem reservedOpcodesFault : Obligations.ReservedOpcodesFault := by
  intro i s hi
  rcases hi with rfl | rfl | rfl | rfl | rfl | rfl | rfl <;> rfl

/-- Settles O45: EXIT's handler requests the clean halt and nothing else. -/
theorem exitHaltsCleanly : Obligations.ExitHaltsCleanly := fun s => concludeHandler_exit s s

end Sys2Proof.Machine
end

section
/-! Reset, load and launch (10_state.md section 5, 70_reset_and_hazards.md sections 2 and 3). -/

namespace Sys2Proof.Machine

theorem cellAt_resetOf (c : Config) (r : Region) (o : Nat) : cellAt ((State.resetOf c).mem.cells r) o = 0x00 := by
  cases r <;> rfl

theorem readByte_resetOf {c : Config} {a : Word} (h : a.toNat < c.endAddr) :
    readByte (State.resetOf c) a = .value 0x00 := by
  rcases readByte_spec (State.resetOf c) a with ⟨r, o, -, hread⟩ | ⟨hfits, -⟩
  · rw [hread, cellAt_resetOf]
  · exact absurd h (not_lt.2 ((byteFits_eq_false_iff ..).1 hfits))

theorem toNat_resetSp {c : Config} (hc : c.sizesLegal = true) : (resetSp c).toNat = c.stackSize := by
  obtain ⟨-, -, -, hend⟩ := (sizesLegal_iff c).1 hc
  simp only [Config.endAddr] at hend
  simp only [resetSp, Config.stackBase, Nat.zero_add, BitVec.toNat_ofNat]
  omega

/-- Settles O53: the fields are those of the reset state; `STACK_SIZE` fits in a word, and empty memory reads as zero. -/
theorem resetValues : Obligations.ResetValues := fun _ hc =>
  ⟨rfl, rfl, rfl, toNat_resetSp hc, toNat_resetSp hc, fun _ => readByte_resetOf, rfl, rfl, rfl, rfl, rfl, rfl⟩

/-- Bytes stored from an offset 0 on are read back, and the others are as before. -/
theorem cellAt_setCells_zero {cells : List Host.Cell} (hc : canonical cells = true) (bytes : List Byte) (o : Nat) :
    cellAt (setCells cells 0 bytes) o = (bytes[o]?).getD (cellAt cells o) := by
  by_cases ho : o < bytes.length
  · have hin := cellAt_setCells_inside hc 0 bytes ho
    rw [Nat.zero_add] at hin
    rw [hin, List.getElem?_eq_getElem ho, Option.getD_some]
  · have hlen : bytes.length ≤ o := not_lt.1 ho
    rw [cellAt_setCells_outside _ _ (.inr (by omega)), List.getElem?_eq_none hlen, Option.getD_none]

/-- Load in `Empty` of a stream that fits. -/
theorem loadProgram_of_fits {s : State} {bytes : List Byte} (hl : s.lifecycle = .empty)
    (h : bytes.length ≤ s.cfg.textSize) :
    loadProgram bytes s =
      (.ok, { s with mem := ⟨s.mem.stack, s.mem.data, setCells s.mem.text 0 bytes⟩, lifecycle := .loaded }) := by
  simp only [loadProgram, hl, if_pos h]
  rfl

/-- Settles O54: the text region takes the stream's bytes in order. -/
theorem loadPlacesTheStream : Obligations.LoadPlacesTheStream := by
  intro s bytes hl hwf hfits
  have htext : canonical s.mem.text = true := (Memory.wf_iff s.mem).1 hwf .text
  exact ⟨_, loadProgram_of_fits hl hfits, rfl, rfl, cellAt_setCells_zero htext bytes⟩

/-- Settles O55: the fault `OversizedProgram` is taken in the state as it was. -/
theorem oversizedLoadHaltsUnchanged : Obligations.OversizedLoadHaltsUnchanged := by
  intro s bytes hl hlong
  simp only [transact, loadProgram, hl, if_neg (not_le.2 hlong)]
  rfl

/-- Settles O56: by the lifecycle state. -/
theorem wrongStateCommandsAreRefused : Obligations.WrongStateCommandsAreRefused := by
  intro s
  cases hl : s.lifecycle <;> simp [transact, loadProgram, runSignal, hl]

/-- Settles O57: reset forgets what the block held; the load and the run signal then act on the reset state. -/
theorem launchStateIsDetermined : Obligations.LaunchStateIsDetermined := by
  intro s bytes hfits
  have hload : (transact (.load bytes) (transact .reset s).2).2 =
      { State.resetOf s.cfg with mem := ⟨[], [], setCells [] 0 bytes⟩, lifecycle := .loaded } :=
    congrArg Prod.snd (loadProgram_of_fits (s := State.resetOf s.cfg) rfl hfits)
  rw [hload]
  exact ⟨_, rfl, rfl, rfl, cellAt_setCells_zero canonical_nil bytes⟩

end Sys2Proof.Machine
end

section
/-! A call and its return (42_control_frame.md section 3, 70_reset_and_hazards.md R242): what CALL and then ENT leave on the stack,
and what LEV makes of it under each stride. -/

namespace Sys2Proof.Machine

/-- What an instruction leaves has canonical memory, if it started with it. -/
theorem wf_of_exec {i : Instr} {s t : State} (h : exec i s = .next t) (hwf : s.mem.wf = true) : t.mem.wf = true := by
  rcases exec_cases i s with ⟨u, hu, hc⟩ | ⟨d, u, hu, hc, -⟩ | ⟨-, hu⟩ <;> cases hu.symm.trans h
  · exact hc.mem.1 hwf
  · exact hc.mem.1 hwf
  · exact hwf

/-- Where the block is still running after a checked statement, its value has been answered and the rest has run. -/
theorem andThen_goes_on {α : Type} {r : Checked α} {start s t : State} {rest : α → HandlerResult}
    (h : concludeHandler start (r.andThen s rest) = .next t) (hrun : t.lifecycle = .running) :
    ∃ v, r = .value v ∧ concludeHandler start (rest v) = .next t := by
  cases r with
  | value v => exact ⟨v, rfl, h⟩
  | raise d =>
    cases h
    cases hrun

/-- Where the block is still running after a push, the word is stored at the lowered `sp` and the rest has run. -/
theorem pushWord_goes_on {start s t : State} {w : Word} {rest : State → HandlerResult} (hwf : s.mem.wf = true)
    (h : concludeHandler start (pushWord s w rest) = .next t) (hrun : t.lifecycle = .running) :
    ∃ m, wordFits s.cfg (pushAddress s) = true ∧ WordStored s m (pushAddress s) w ∧
      concludeHandler start (rest { s with sp := pushAddress s, mem := m }) = .next t := by
  cases hfits : wordFits s.cfg (pushAddress s) with
  | true =>
    obtain ⟨m, hpush, -, hstored, -⟩ := pushWord_of_fits w rest hfits
    exact ⟨m, rfl, hstored hwf, hpush ▸ h⟩
  | false =>
    rw [pushWord_of_not_fits w rest hfits] at h
    cases h
    cases hrun

/-- A CALL that goes on has stored its link at the lowered `sp`. -/
theorem call_goes_on {s t : State} (hwf : s.mem.wf = true) (hexec : exec .call s = .next t)
    (hrun : t.lifecycle = .running) :
    ∃ m target, wordFits s.cfg (pushAddress s) = true ∧ WordStored s m (pushAddress s) s.pc ∧
      t = { s with sp := pushAddress s, mem := m, pc := target } := by
  obtain ⟨m, hfits, hstored, hrest⟩ := pushWord_goes_on hwf hexec hrun
  obtain ⟨target, -, hjump⟩ := andThen_goes_on hrest hrun
  cases hjump
  exact ⟨m, target, hfits, hstored, rfl⟩

/-- An ENT that goes on has stored `bp` at the lowered `sp`, which is the new `bp`. -/
theorem ent_goes_on {s t : State} (hwf : s.mem.wf = true) (hexec : exec .ent s = .next t)
    (hrun : t.lifecycle = .running) :
    ∃ m n, wordFits s.cfg (pushAddress s) = true ∧ WordStored s m (pushAddress s) s.bp ∧
      t = { s with bp := pushAddress s, sp := pushAddress s - n, mem := m, pc := s.pc + 4 } := by
  obtain ⟨m, hfits, hstored, hrest⟩ := pushWord_goes_on hwf hexec hrun
  obtain ⟨n, -, hopen⟩ := andThen_goes_on hrest hrun
  cases hopen
  exact ⟨m, n, hfits, hstored, rfl⟩

/-- A frame opened: `t` is what CALL has made of `s`, and `u` what ENT has made of `t`. The link stands at `pushAddress s`, the
saved `bp` one stride below, at `u.bp`. -/
structure FrameOpened (s t u : State) : Prop where
  callCfg : t.cfg = s.cfg
  entCfg : u.cfg = s.cfg
  linkFits : wordFits s.cfg (pushAddress s) = true
  savedFits : wordFits s.cfg u.bp = true
  bp : u.bp = pushAddress s - s.cfg.pushStride.bytes
  link : readWord t (pushAddress s) = .value s.pc
  saved : readWord u u.bp = .value s.bp
  callFrame : ∀ b, outside (pushAddress s) 4 b → readByte t b = readByte s b
  entFrame : ∀ b, outside u.bp 4 b → readByte u b = readByte t b

theorem frameOpened_of_call_ent {s t u : State} (hwf : s.mem.wf = true) (hcall : exec .call s = .next t)
    (ht : t.lifecycle = .running) (hent : exec .ent { t with pc := t.pc + 1 } = .next u) (hu : u.lifecycle = .running) :
    FrameOpened s t u := by
  have hwf' : t.mem.wf = true := wf_of_exec hcall hwf
  obtain ⟨m', n, hfits', ⟨hsaved, hframe'⟩, rfl⟩ := ent_goes_on (s := { t with pc := t.pc + 1 }) hwf' hent hu
  obtain ⟨m, target, hfits, ⟨hlink, hframe⟩, rfl⟩ := call_goes_on hwf hcall ht
  exact ⟨rfl, rfl, hfits, hfits', rfl, hlink, hsaved, hframe, hframe'⟩

/-- The four bytes of a word that fits lie below `END`. -/
theorem toNat_add_four_le_of_wordFits {c : Config} {a : Word} (h : wordFits c a = true) : a.toNat + 4 ≤ c.endAddr := by
  obtain ⟨r, hlo, hhi⟩ := (wordFits_iff c a).1 h
  have := lt_endAddr (c := c) (r := r) (o := a.toNat - c.baseOf r + 3) (by omega)
  omega

/-- The margin above `END` keeps the addresses just after a word that fits from wrapping. -/
theorem toNat_add_of_wordFits {c : Config} {a : Word} (hc : c.sizesLegal = true) (h : wordFits c a = true) {k : Nat}
    (hk : k ≤ 11) : (a + BitVec.ofNat 32 k).toNat = a.toNat + k := by
  obtain ⟨-, -, -, hend⟩ := (sizesLegal_iff c).1 hc
  have := toNat_add_four_le_of_wordFits h
  exact toNat_add_of_lt a (by omega)

/-- A word reads the same in two states in which its four bytes do. -/
theorem readWord_eq_of_bytes {t u : State} (hcfg : u.cfg = t.cfg) (hc : t.cfg.sizesLegal = true) {a : Word}
    (hfits : wordFits t.cfg a = true)
    (hbytes : ∀ k, k < 4 → readByte u (a + BitVec.ofNat 32 k) = readByte t (a + BitVec.ofNat 32 k)) :
    readWord u a = readWord t a := by
  obtain ⟨w, hw⟩ := readWord_of_fits hfits
  obtain ⟨b0, b1, b2, b3, h0, h1, h2, h3, rfl⟩ := bytes_of_readWord hc hw
  have hfirst : readByte u a = readByte t a := by simpa using hbytes 0 (by omega)
  rw [hw]
  exact readWord_of_bytes (hcfg ▸ hc) (hcfg ▸ hfits) (hfirst.trans h0) ((hbytes 1 (by omega)).trans h1)
    ((hbytes 2 (by omega)).trans h2) ((hbytes 3 (by omega)).trans h3)

namespace FrameOpened

variable {s t u : State}

/-- The word above the saved `bp` is as CALL left it. -/
theorem readWord_above (h : FrameOpened s t u) (hc : s.cfg.sizesLegal = true)
    (hfits : wordFits s.cfg (u.bp + 4) = true) : readWord u (u.bp + 4) = readWord t (u.bp + 4) := by
  have hcfg := h.callCfg
  refine readWord_eq_of_bytes (h.entCfg.trans hcfg.symm) (hcfg ▸ hc) (hcfg ▸ hfits) fun k hk => h.entFrame _ (.inr ?_)
  have hword : (u.bp + 4).toNat = u.bp.toNat + 4 := toNat_add_of_wordFits hc h.savedFits (k := 4) (by omega)
  rw [toNat_add_of_wordFits hc hfits (by omega)]
  omega

/-- LEV in the opened frame, where the word it takes for the link can be read. -/
theorem exec_lev_eq (h : FrameOpened s t u) (hc : s.cfg.sizesLegal = true) {link : Word}
    (hfits : wordFits s.cfg (u.bp + 4) = true) (hlink : readWord t (u.bp + 4) = .value link) :
    exec .lev { u with pc := u.pc + 1 } = .next { u with pc := link, sp := u.bp + 8, bp := s.bp } := by
  have hcfg := h.entCfg
  obtain ⟨savedBp, link', hsaved', hlink', hexec⟩ := (levRestoresTheFrame { u with pc := u.pc + 1 }).1
    (hcfg ▸ h.savedFits) (hcfg ▸ hfits)
  cases h.saved.symm.trans hsaved'
  cases (h.readWord_above hc hfits |>.trans hlink).symm.trans hlink'
  exact hexec

end FrameOpened

/-- Settles O34: with stride 4 the link stands right above the saved `bp`, where LEV reads it. -/
theorem callEntLevRoundTrip : Obligations.CallEntLevRoundTrip := by
  intro s t u hwf hc hstride _ hcall ht hent hu
  have h := frameOpened_of_call_ent hwf hcall ht hent hu
  have hbp : u.bp = pushAddress s - 4 := h.bp.trans (by rw [hstride]; rfl)
  have hlinkAddr : u.bp + 4 = pushAddress s := by rw [hbp, BitVec.sub_add_cancel]
  have hsp : u.bp + 8 = s.sp := by
    rw [← add_four_add_four, hlinkAddr, pushAddress, hstride]
    exact BitVec.sub_add_cancel ..
  rw [h.exec_lev_eq hc (hlinkAddr ▸ h.linkFits) (hlinkAddr ▸ h.link), hsp]

/-- Settles O35: with stride 5 there is one byte between the saved `bp` and the link; LEV takes it and the upper three bytes of
the link. -/
theorem strideFiveMisreadsTheLink : Obligations.StrideFiveMisreadsTheLink := by
  intro s t u hwf hc hstride _ hcall ht hent hu hfits
  have h := frameOpened_of_call_ent hwf hcall ht hent hu
  rw [h.entCfg] at hfits
  have hbp : u.bp = pushAddress s - 5 := h.bp.trans (by rw [hstride]; rfl)
  have hlinkAddr : u.bp + 4 + 1 = pushAddress s := by
    rw [hbp, BitVec.add_assoc]
    exact BitVec.sub_add_cancel ..
  have hsp : u.bp + 8 = s.sp - 2 := by
    rw [hbp, pushAddress, hstride, PushStride.bytes]
    bv_omega
  have hgapAddr : (u.bp + 4).toNat + 1 = (pushAddress s).toNat :=
    hlinkAddr ▸ (toNat_add_of_wordFits hc hfits (k := 1) (by omega)).symm
  have hgap : readByte t (u.bp + 4) = readByte s (u.bp + 4) := h.callFrame _ (.inl (by omega))
  have hgapFits := toNat_add_four_le_of_wordFits hfits
  obtain ⟨b, hb⟩ : ∃ b, readByte s (u.bp + 4) = .value b := readByte_of_fits (by omega)
  obtain ⟨b0, b1, b2, b3, h0, h1, h2, -, hpc⟩ := bytes_of_readWord (h.callCfg ▸ hc) h.link
  rw [← hlinkAddr] at h0 h1 h2
  rw [BitVec.add_assoc] at h1 h2
  have hmisread : readWord t (u.bp + 4) = .value (wordOfBytes b b0 b1 b2) :=
    readWord_of_bytes (h.callCfg ▸ hc) (h.callCfg ▸ hfits) (hgap.trans hb) h0 h1 h2
  refine ⟨zext32 b, wordOfBytes b b0 b1 b2, ⟨b, hb, toNat_zext32 b⟩, ?_, ?_⟩
  · have hb3 := b3.isLt
    rw [hpc, toNat_zext32, toNat_wordOfBytes, toNat_wordOfBytes]
    omega
  · rw [h.exec_lev_eq hc hfits hmisread, hsp]

end Sys2Proof.Machine
end

section
/-! The handlers, one rule each: what the frame statements are proved over. The binary operators are one family, and so are the
reserved opcodes, and JZ with JNZ. -/

namespace Sys2Proof.Machine

/-- The binary operators (43_binary_ops.md). -/
def binaryInstrs : List Instr :=
  [.or, .xor, .and, .eq, .ne, .lt, .gt, .le, .ge, .shl, .shr, .add, .sub, .mul, .div, .mod]

/-- The reserved host-call opcodes (44_hostcall_reserved.md R170 to R176). -/
def reservedInstrs : List Instr := [.open_, .read, .clos, .prtf, .malc, .mset, .mcmp]

/-- `Handles i h`: `h` has the shape of the handler of `i`, as a function of the state it starts in; of a binary operator the shape
is the skeleton R140 over some operator function. -/
inductive Handles : Instr → (State → HandlerResult) → Prop
  | imm : Handles .imm fun s => (operandWord s).andThen s fun v => .proceed (skipWord (s.setAx v))
  | lc : Handles .lc fun s => (readByte s s.ax).andThen s fun b => .proceed (s.setAx (zext32 b))
  | li : Handles .li fun s => (readWord s s.ax).andThen s fun w => .proceed (s.setAx w)
  | sc : Handles .sc fun s =>
      (writeByte s s.sp (s.ax.setWidth 8)).andThen s fun r => .proceed (r.2.setAx (zext32 r.1))
  | si : Handles .si fun s => (writeWord s s.sp s.ax).andThen s fun r => .proceed (r.2.setAx r.1)
  | push : Handles .push fun s => pushWord s s.ax .proceed
  | jmp : Handles .jmp performJmp
  | jzJnz {i : Instr} (hi : i = .jz ∨ i = .jnz) : Handles i jumpIfZero
  | call : Handles .call fun s => pushWord s s.pc performJmp
  | ent : Handles .ent fun s => pushWord s s.bp openFrame
  | adj : Handles .adj fun s => (operandWord s).andThen s fun n => .proceed (skipWord (s.setSp (s.sp + n)))
  | lev : Handles .lev fun s => popWord (s.setSp s.bp) fun savedBp popped => returnToLink (popped.setBp savedBp)
  | lea : Handles .lea fun s => (operandByte s).andThen s fun off =>
      (readWord (skipByte s) (frameAddress s off)).andThen (skipByte s) fun w => .proceed ((skipByte s).setAx w)
  | binary {i : Instr} (hi : i ∈ binaryInstrs) (f : Word → Word → Checked Word) : Handles i (binaryOp f)
  | reserved {i : Instr} (hi : i ∈ reservedInstrs) : Handles i (raiseReserved i)
  | exit : Handles .exit .exit

/-- `exec` of an instruction is its handler, concluded by the dispatcher. -/
theorem exists_handler (i : Instr) : ∃ h, Handles i h ∧ ∀ s, exec i s = concludeHandler s (h s) := by
  cases i with
  | imm => exact ⟨_, .imm, fun _ => rfl⟩
  | lc => exact ⟨_, .lc, fun _ => rfl⟩
  | li => exact ⟨_, .li, fun _ => rfl⟩
  | sc => exact ⟨_, .sc, fun _ => rfl⟩
  | si => exact ⟨_, .si, fun _ => rfl⟩
  | push => exact ⟨_, .push, fun _ => rfl⟩
  | jmp => exact ⟨_, .jmp, fun _ => rfl⟩
  | jz => exact ⟨_, .jzJnz (.inl rfl), exec_jz_jnz (.inl rfl)⟩
  | jnz => exact ⟨_, .jzJnz (.inr rfl), exec_jz_jnz (.inr rfl)⟩
  | call => exact ⟨_, .call, fun _ => rfl⟩
  | ent => exact ⟨_, .ent, fun _ => rfl⟩
  | adj => exact ⟨_, .adj, fun _ => rfl⟩
  | lev => exact ⟨_, .lev, fun _ => rfl⟩
  | lea => exact ⟨_, .lea, fun _ => rfl⟩
  | or => exact ⟨_, .binary (by decide) opOr, fun _ => rfl⟩
  | xor => exact ⟨_, .binary (by decide) opXor, fun _ => rfl⟩
  | and => exact ⟨_, .binary (by decide) opAnd, fun _ => rfl⟩
  | eq => exact ⟨_, .binary (by decide) opEq, fun _ => rfl⟩
  | ne => exact ⟨_, .binary (by decide) opNe, fun _ => rfl⟩
  | lt => exact ⟨_, .binary (by decide) opLt, fun _ => rfl⟩
  | gt => exact ⟨_, .binary (by decide) opGt, fun _ => rfl⟩
  | le => exact ⟨_, .binary (by decide) opLe, fun _ => rfl⟩
  | ge => exact ⟨_, .binary (by decide) opGe, fun _ => rfl⟩
  | shl => exact ⟨_, .binary (by decide) opShl, fun _ => rfl⟩
  | shr => exact ⟨_, .binary (by decide) opShr, fun _ => rfl⟩
  | add => exact ⟨_, .binary (by decide) opAdd, fun _ => rfl⟩
  | sub => exact ⟨_, .binary (by decide) opSub, fun _ => rfl⟩
  | mul => exact ⟨_, .binary (by decide) opMul, fun _ => rfl⟩
  | div => exact ⟨_, .binary (by decide) opDiv, fun _ => rfl⟩
  | mod => exact ⟨_, .binary (by decide) opMod, fun _ => rfl⟩
  | open_ => exact ⟨_, .reserved (by decide), fun _ => rfl⟩
  | read => exact ⟨_, .reserved (by decide), fun _ => rfl⟩
  | clos => exact ⟨_, .reserved (by decide), fun _ => rfl⟩
  | prtf => exact ⟨_, .reserved (by decide), fun _ => rfl⟩
  | malc => exact ⟨_, .reserved (by decide), fun _ => rfl⟩
  | mset => exact ⟨_, .reserved (by decide), fun _ => rfl⟩
  | mcmp => exact ⟨_, .reserved (by decide), fun _ => rfl⟩
  | exit => exact ⟨_, .exit, fun _ => rfl⟩

end Sys2Proof.Machine
end

section
/-! Frames (10_state.md R11, 20_memory.md R51, 70_reset_and_hazards.md R234): which memory and which `pc` an instruction leaves, in
whatever way its handler ends. -/

namespace Sys2Proof.Machine

/-- The state a handler ends in meets `go` where it goes on, and `stop` where it faults or is EXIT's. -/
def HandlerResult.Ends (go stop : State → Prop) : HandlerResult → Prop
  | .proceed t => go t
  | .fault _ t => stop t
  | .exit t => stop t

theorem HandlerResult.Ends.andThen {go stop : State → Prop} {α : Type} {r : Checked α} {s : State}
    {rest : α → HandlerResult} (hs : stop s) (h : ∀ v, r = .value v → (rest v).Ends go stop) :
    (r.andThen s rest).Ends go stop := by
  cases hr : r with
  | value v => exact h v hr
  | raise d => exact hs

/-- A byte write ends as its rest does after the store, or on its fault. -/
theorem ends_writeByte {go stop : State → Prop} {s : State} {a : Word} {v : Byte} {rest : Byte × State → HandlerResult}
    (hs : stop s)
    (h : ∀ m, (∀ b, outside a 1 b → readByte { s with mem := m } b = readByte s b) →
      (rest (v, { s with mem := m })).Ends go stop) :
    ((writeByte s a v).andThen s rest).Ends go stop := by
  rcases writeByte_spec s a v with ⟨-, m, hwrite, -, -, hframe⟩ | ⟨-, hraise⟩
  · rw [hwrite]
    exact h m hframe
  · rw [hraise]
    exact hs

/-- A word write ends as its rest does after the store, or on its fault. -/
theorem ends_writeWord {go stop : State → Prop} {s : State} {a w : Word} {rest : Word × State → HandlerResult}
    (hs : stop s)
    (h : ∀ m, (∀ b, outside a 4 b → readByte { s with mem := m } b = readByte s b) →
      (rest (w, { s with mem := m })).Ends go stop) :
    ((writeWord s a w).andThen s rest).Ends go stop := by
  rcases writeWord_spec s a w with ⟨-, m, hwrite, -, -, hframe⟩ | ⟨-, hraise⟩
  · rw [hwrite]
    exact h m hframe
  · rw [hraise]
    exact hs

/-- A push ends as its rest does after the store, or on its fault with `sp` lowered. -/
theorem ends_pushWord {go stop : State → Prop} {s : State} {w : Word} {rest : State → HandlerResult}
    (hs : stop { s with sp := pushAddress s })
    (h : ∀ m, (∀ b, outside (pushAddress s) 4 b → readByte { s with mem := m } b = readByte s b) →
      (rest { s with sp := pushAddress s, mem := m }).Ends go stop) :
    (pushWord s w rest).Ends go stop :=
  ends_writeWord (s := s.setSp (pushAddress s)) hs h

/-- What the halts do not touch holds of the next state in whatever way the handler ends. -/
theorem HandlerResult.Ends.of_conclude {P : State → Prop} {r : HandlerResult} (h : r.Ends P P)
    (hfault : ∀ p d u, P u → P (takeFault p d u)) (hexit : ∀ u, P u → P (takeExit u)) {start t : State}
    (hc : concludeHandler start r = .next t) : P t := by
  cases r with
  | proceed u =>
    cases hc
    exact h
  | fault d u =>
    cases hc
    exact hfault _ d u h
  | exit u =>
    cases hc
    exact hexit u h

/-- A block left running has gone on. -/
theorem HandlerResult.Ends.of_conclude_running {go stop : State → Prop} {r : HandlerResult} (h : r.Ends go stop)
    {start t : State} (hc : concludeHandler start r = .next t) (ht : t.lifecycle = .running) : go t := by
  cases r with
  | proceed u =>
    cases hc
    exact h
  | fault d u =>
    cases hc
    cases ht
  | exit u =>
    cases hc
    cases ht

theorem ends_performJmp {go stop : State → Prop} {s : State} (hs : stop s) (h : ∀ target, go (s.setPc target)) :
    (performJmp s).Ends go stop :=
  .andThen hs fun target _ => h target

theorem ends_jumpIfZero {go stop : State → Prop} {s : State} (hs : stop s) (hjump : ∀ target, go (s.setPc target))
    (hskip : go (skipWord s)) : (jumpIfZero s).Ends go stop := by
  unfold jumpIfZero
  split
  · exact ends_performJmp hs hjump
  · exact hskip

theorem storeSpan_of_binary : ∀ i ∈ binaryInstrs, ∀ s, storeSpan i s = none := by
  simp [binaryInstrs, storeSpan]

theorem storeSpan_of_reserved : ∀ i ∈ reservedInstrs, ∀ s, storeSpan i s = none := by
  simp [reservedInstrs, storeSpan]

/-- The handlers that store nowhere leave the memory as it was. -/
theorem Handles.mem_of_storeSpan_none {i : Instr} {h : State → HandlerResult} (hh : Handles i h) {s : State}
    (hi : storeSpan i s = none) : (h s).Ends (fun t => t.mem = s.mem) (fun t => t.mem = s.mem) := by
  cases hh with
  | imm => exact .andThen rfl fun _ _ => rfl
  | lc => exact .andThen rfl fun _ _ => rfl
  | li => exact .andThen rfl fun _ _ => rfl
  | jmp => exact ends_performJmp rfl fun _ => rfl
  | jzJnz => exact ends_jumpIfZero rfl (fun _ => rfl) rfl
  | sc | si | push | call | ent => cases hi
  | adj => exact .andThen rfl fun _ _ => rfl
  | lev => exact .andThen rfl fun _ _ => .andThen rfl fun _ _ => rfl
  | lea => exact .andThen rfl fun _ _ => .andThen rfl fun _ _ => rfl
  | binary => exact .andThen rfl fun _ _ => .andThen rfl fun _ _ => rfl
  | reserved => exact rfl
  | exit => exact rfl

/-- The byte at `b` reads in `t` as it does in `s`, whatever else differs. -/
def SameByte (s : State) (b : Word) (t : State) : Prop := t.cfg = s.cfg ∧ readByte t b = readByte s b

/-- Only configuration and memory decide what a byte reads as. -/
theorem SameByte.congr {s t u : State} {b : Word} (h : SameByte s b t) (hcfg : u.cfg = t.cfg) (hmem : u.mem = t.mem) :
    SameByte s b u :=
  ⟨hcfg.trans h.1, (readByte_congr hcfg hmem b).trans h.2⟩

theorem SameByte.refl (s : State) (b : Word) : SameByte s b s := ⟨rfl, rfl⟩

/-- The handlers that store leave every byte outside their span as it was. -/
theorem Handles.sameByte_of_storeSpan {i : Instr} {h : State → HandlerResult} (hh : Handles i h) {s : State} {a : Word}
    {n : Nat} (hi : storeSpan i s = some (a, n)) {b : Word} (hb : outside a n b) :
    (h s).Ends (SameByte s b) (SameByte s b) := by
  have hlow : SameByte s b { s with sp := pushAddress s } := (SameByte.refl s b).congr rfl rfl
  have hstored (m : Memory) (hframe : readByte { s with mem := m } b = readByte s b) : SameByte s b { s with mem := m } :=
    ⟨rfl, hframe⟩
  cases hh with
  | sc =>
    cases hi
    exact ends_writeByte (.refl s b) fun m hframe => (hstored m (hframe b hb)).congr rfl rfl
  | si =>
    cases hi
    exact ends_writeWord (.refl s b) fun m hframe => (hstored m (hframe b hb)).congr rfl rfl
  | push =>
    cases hi
    exact ends_pushWord hlow fun m hframe => (hstored m (hframe b hb)).congr rfl rfl
  | call =>
    cases hi
    exact ends_pushWord hlow fun m hframe => ends_performJmp ((hstored m (hframe b hb)).congr rfl rfl) fun _ =>
      (hstored m (hframe b hb)).congr rfl rfl
  | ent =>
    cases hi
    exact ends_pushWord hlow fun m hframe => .andThen ((hstored m (hframe b hb)).congr rfl rfl) fun _ _ =>
      (hstored m (hframe b hb)).congr rfl rfl
  | binary hmem => simp [storeSpan_of_binary i hmem] at hi
  | reserved hmem => simp [storeSpan_of_reserved i hmem] at hi
  | jzJnz hjump => rcases hjump with rfl | rfl <;> cases hi
  | imm | lc | li | jmp | adj | lev | lea | exit => cases hi

/-- Settles O46: by the handler, and since no halt touches memory. -/
theorem memoryChangesOnlyWhereStored : Obligations.MemoryChangesOnlyWhereStored := by
  intro i s t hexec
  obtain ⟨h, hh, hi⟩ := exists_handler i
  rw [hi] at hexec
  refine ⟨fun hspan => ?_, fun a n hspan b hb => ?_⟩
  · exact (hh.mem_of_storeSpan_none hspan).of_conclude (fun _ _ _ hu => hu) (fun _ hu => hu) hexec
  · have hsame : SameByte s b t := (hh.sameByte_of_storeSpan hspan hb).of_conclude
      (fun _ _ _ hu => hu.congr rfl rfl) (fun _ hu => hu.congr rfl rfl) hexec
    exact hsame.2

theorem format_of_binary : ∀ i ∈ binaryInstrs, i.format = .op := by decide

/-- A handler that goes on and transfers no control has moved `pc` over the operand. -/
theorem Handles.pc_of_goes_on {i : Instr} {h : State → HandlerResult} (hh : Handles i h) {s : State}
    (hi : transfersControl i = false ∨ ((i = .jz ∨ i = .jnz) ∧ s.ax ≠ 0)) :
    (h s).Ends (fun t => t.pc = s.pc + BitVec.ofNat 32 (i.format.length - 1)) fun _ => True := by
  have hop : s.pc = s.pc + BitVec.ofNat 32 0 := (BitVec.add_zero s.pc).symm
  cases hh with
  | imm => exact .andThen trivial fun _ _ => rfl
  | lc => exact .andThen trivial fun _ _ => hop
  | li => exact .andThen trivial fun _ _ => hop
  | sc => exact ends_writeByte trivial fun _ _ => hop
  | si => exact ends_writeWord trivial fun _ _ => hop
  | push => exact ends_pushWord trivial fun _ _ => hop
  | jzJnz hjump =>
    have hax : s.ax ≠ 0 := by rcases hjump with rfl | rfl <;> simpa [transfersControl] using hi
    have hlen : i.format.length - 1 = 4 := by rcases hjump with rfl | rfl <;> rfl
    rw [jumpIfZero_of_ne hax, hlen]
    exact rfl
  | ent => exact ends_pushWord trivial fun _ _ => .andThen trivial fun _ _ => rfl
  | adj => exact .andThen trivial fun _ _ => rfl
  | jmp | call | lev => simp [transfersControl] at hi
  | lea => exact .andThen trivial fun _ _ => .andThen trivial fun _ _ => rfl
  | binary hmem =>
    rw [format_of_binary i hmem]
    exact .andThen trivial fun _ _ => .andThen trivial fun _ _ => hop
  | reserved => exact trivial
  | exit => exact trivial

theorem Format.length_range (f : Format) : 1 ≤ f.length ∧ f.length ≤ 5 := by
  cases f <;> decide

/-- Settles O50: the fetch moves `pc` by one and the handler by the rest of the length; the margin above `END` is larger than any
instruction. -/
theorem pcAdvancesByTheInstructionLength : Obligations.PcAdvancesByTheInstructionLength := by
  intro s t op i hrun hc hfetch hdecode hi hstep ht
  obtain ⟨h, hh, hexec⟩ := exists_handler i
  rw [step_of_decoded hrun hfetch hdecode, hexec] at hstep
  have hpc : t.pc = s.pc + 1 + BitVec.ofNat 32 (i.format.length - 1) :=
    (hh.pc_of_goes_on (s := advancePc s) hi).of_conclude_running hstep ht
  have hlt : s.pc.toNat < s.cfg.textSize := by
    by_contra hge
    cases (textReadByte_of_le (not_lt.1 hge)).symm.trans hfetch
  obtain ⟨-, -, -, hend⟩ := (sizesLegal_iff s.cfg).1 hc
  simp only [Config.endAddr] at hend
  obtain ⟨hpos, hle⟩ := Format.length_range i.format
  have hnext := toNat_pc_add_one hc hlt
  rw [hpc, toNat_add_of_lt _ (by omega), hnext]
  omega

end Sys2Proof.Machine
end

section
/-! Non-interference (10_state.md R12 to R14, 40_dispatch.md R85): a handler run on a state in which fields it does not touch hold
other values does the same and leaves those values. -/

namespace Sys2Proof.Machine

/-- A handler's answer with `f` applied to its state. -/
def HandlerResult.map (f : State → State) : HandlerResult → HandlerResult
  | .proceed t => .proceed (f t)
  | .fault d t => .fault d (f t)
  | .exit t => .exit (f t)

/-- `f` puts other values in some fields, and in none of the fields that every handler may use: configuration, memory and `pc`. -/
structure Overlay (f : State → State) : Prop where
  cfg : ∀ s, (f s).cfg = s.cfg
  mem : ∀ s, (f s).mem = s.mem
  pc : ∀ s, (f s).pc = s.pc
  setMem : ∀ s m, (f s).setMem m = f (s.setMem m)
  setPc : ∀ s v, (f s).setPc v = f (s.setPc v)

/-- `f` puts no other value in `ax`. -/
structure KeepsAx (f : State → State) : Prop where
  get : ∀ s, (f s).ax = s.ax
  set : ∀ s v, (f s).setAx v = f (s.setAx v)

/-- `f` puts no other value in `sp`. -/
structure KeepsSp (f : State → State) : Prop where
  get : ∀ s, (f s).sp = s.sp
  set : ∀ s v, (f s).setSp v = f (s.setSp v)

/-- `f` puts no other value in `bp`. -/
structure KeepsBp (f : State → State) : Prop where
  get : ∀ s, (f s).bp = s.bp
  set : ∀ s v, (f s).setBp v = f (s.setBp v)

/-- The instructions that neither read nor write `ax` are those with `false` (10_state.md R14). -/
def usesAx : Instr → Bool
  | .jmp | .call | .ent | .adj | .lev => false
  | .open_ | .read | .clos | .prtf | .malc | .mset | .mcmp | .exit => false
  | _ => true

/-- The instructions that neither read nor write `sp` are those with `false` (10_state.md R12). -/
def usesSp : Instr → Bool
  | .imm | .lc | .li | .jmp | .jz | .jnz | .lea => false
  | .open_ | .read | .clos | .prtf | .malc | .mset | .mcmp | .exit => false
  | _ => true

/-- The instructions that read or write `bp` are those with `true` (10_state.md R13). -/
def usesBp : Instr → Bool
  | .ent | .lev | .lea => true
  | _ => false

/-- `f` changes no field that the instruction uses. -/
structure Respects (f : State → State) (i : Instr) : Prop where
  overlay : Overlay f
  ax : usesAx i = true → KeepsAx f
  sp : usesSp i = true → KeepsSp f
  bp : usesBp i = true → KeepsBp f

theorem HandlerResult.map_andThen {α : Type} (f : State → State) (r : Checked α) (s : State) (rest : α → HandlerResult) :
    (r.andThen s rest).map f = r.andThen (f s) fun v => (rest v).map f := by
  cases r <;> rfl

/-- A check that answers the same carries `f` through to the end of a handler whose rest does. -/
theorem andThen_eq_map {f : State → State} {α : Type} {r r' : Checked α} {s : State} {rest rest' : α → HandlerResult}
    (hr : r' = r) (hrest : ∀ v, rest' v = (rest v).map f) : r'.andThen (f s) rest' = (r.andThen s rest).map f := by
  rw [HandlerResult.map_andThen, hr]
  exact congrArg _ (funext hrest)

namespace Overlay

variable {f : State → State} (hf : Overlay f)

include hf

theorem readByte_eq (s : State) (a : Word) : readByte (f s) a = readByte s a := readByte_congr (hf.cfg s) (hf.mem s) a

theorem readWord_eq (s : State) (a : Word) : readWord (f s) a = readWord s a := readWord_congr (hf.cfg s) (hf.mem s) a

theorem operandWord_eq (s : State) : operandWord (f s) = operandWord s := by
  rw [operandWord, operandWord, hf.pc, textReadWord_congr (hf.cfg s) (hf.mem s)]

theorem operandByte_eq (s : State) : operandByte (f s) = operandByte s := by
  rw [operandByte, operandByte, hf.pc, textReadByte_congr (hf.cfg s) (hf.mem s)]

theorem skipWord_eq (s : State) : skipWord (f s) = f (skipWord s) := by
  rw [skipWord, skipWord, hf.pc, hf.setPc]

theorem skipByte_eq (s : State) : skipByte (f s) = f (skipByte s) := by
  rw [skipByte, skipByte, hf.pc, hf.setPc]

theorem writeByte_andThen {s : State} {a : Word} {v : Byte} {rest : Byte × State → HandlerResult}
    (hrest : ∀ b u, rest (b, f u) = (rest (b, u)).map f) :
    (writeByte (f s) a v).andThen (f s) rest = ((writeByte s a v).andThen s rest).map f := by
  rw [writeByte, writeByte, hf.cfg, hf.mem]
  cases translateAddr s.cfg a with
  | none => rfl
  | some p =>
    simp only [Checked.andThen_value, hf.setMem]
    exact hrest ..

theorem writeWord_andThen {s : State} {a w : Word} {rest : Word × State → HandlerResult}
    (hrest : ∀ v u, rest (v, f u) = (rest (v, u)).map f) :
    (writeWord (f s) a w).andThen (f s) rest = ((writeWord s a w).andThen s rest).map f := by
  rw [writeWord, writeWord, hf.cfg, hf.mem]
  cases translateWord s.cfg a with
  | none => rfl
  | some p =>
    simp only [Checked.andThen_value, hf.setMem]
    exact hrest ..

theorem pushWord_eq (hsp : KeepsSp f) {s : State} {w : Word} {rest : State → HandlerResult}
    (hrest : ∀ u, rest (f u) = (rest u).map f) : pushWord (f s) w rest = (pushWord s w rest).map f := by
  have haddr : pushAddress (f s) = pushAddress s := by rw [pushAddress, pushAddress, hf.cfg, hsp.get]
  simp only [pushWord, haddr, hsp.set, hsp.get]
  exact hf.writeWord_andThen fun _ u => hrest u

theorem popWord_eq (hsp : KeepsSp f) {s : State} {rest : Word → State → HandlerResult}
    (hrest : ∀ w u, rest w (f u) = (rest w u).map f) : popWord (f s) rest = (popWord s rest).map f := by
  simp only [popWord, hsp.set, hsp.get]
  exact andThen_eq_map (hf.readWord_eq ..) fun w => hrest w _

theorem performJmp_eq (s : State) : performJmp (f s) = (performJmp s).map f :=
  andThen_eq_map (hf.operandWord_eq s) fun target => congrArg HandlerResult.proceed (hf.setPc s target)

theorem jumpIfZero_eq (hax : KeepsAx f) (s : State) : jumpIfZero (f s) = (jumpIfZero s).map f := by
  by_cases h : s.ax = 0
  · rw [jumpIfZero_of_eq h, jumpIfZero_of_eq ((hax.get s).trans h), hf.performJmp_eq]
  · rw [jumpIfZero_of_ne h, jumpIfZero_of_ne (by rwa [hax.get]), hf.skipWord_eq]
    rfl

theorem openFrame_eq (hsp : KeepsSp f) (hbp : KeepsBp f) (s : State) : openFrame (f s) = (openFrame s).map f := by
  simp only [openFrame, hsp.get, hbp.set]
  refine andThen_eq_map (hf.operandWord_eq _) fun n => ?_
  rw [hsp.set, hf.skipWord_eq]
  rfl

theorem returnToLink_eq (hsp : KeepsSp f) (s : State) : returnToLink (f s) = (returnToLink s).map f :=
  hf.popWord_eq hsp fun link u => congrArg HandlerResult.proceed (hf.setPc u link)

theorem binaryOp_eq (hax : KeepsAx f) (hsp : KeepsSp f) (op : Word → Word → Checked Word) (s : State) :
    binaryOp op (f s) = (binaryOp op s).map f :=
  hf.popWord_eq hsp fun _ u => andThen_eq_map (by rw [hax.get]) fun v => congrArg HandlerResult.proceed (hax.set u v)

end Overlay

theorem usesAx_usesSp_of_binary : ∀ i ∈ binaryInstrs, usesAx i = true ∧ usesSp i = true := by decide

/-- A handler does the same, field by field, under an `f` that changes no field its instruction uses. -/
theorem Handles.map_eq {i : Instr} {h : State → HandlerResult} (hh : Handles i h) {f : State → State}
    (hr : Respects f i) (s : State) : h (f s) = (h s).map f := by
  obtain ⟨hf, hax, hsp, hbp⟩ := hr
  cases hh with
  | imm =>
    refine andThen_eq_map (hf.operandWord_eq s) fun v => ?_
    rw [(hax rfl).set, hf.skipWord_eq]
    rfl
  | lc =>
    refine andThen_eq_map ?_ fun b => congrArg HandlerResult.proceed ((hax rfl).set s _)
    rw [(hax rfl).get, hf.readByte_eq]
  | li =>
    refine andThen_eq_map ?_ fun w => congrArg HandlerResult.proceed ((hax rfl).set s w)
    rw [(hax rfl).get, hf.readWord_eq]
  | sc =>
    simp only [(hax rfl).get, (hsp rfl).get]
    exact hf.writeByte_andThen fun b u => congrArg HandlerResult.proceed ((hax rfl).set u _)
  | si =>
    simp only [(hax rfl).get, (hsp rfl).get]
    exact hf.writeWord_andThen fun w u => congrArg HandlerResult.proceed ((hax rfl).set u w)
  | push =>
    simp only [(hax rfl).get]
    exact hf.pushWord_eq (hsp rfl) fun _ => rfl
  | jmp => exact hf.performJmp_eq s
  | jzJnz hi => exact hf.jumpIfZero_eq (hax (by rcases hi with rfl | rfl <;> rfl)) s
  | call =>
    simp only [hf.pc]
    exact hf.pushWord_eq (hsp rfl) hf.performJmp_eq
  | ent =>
    simp only [(hbp rfl).get]
    exact hf.pushWord_eq (hsp rfl) (hf.openFrame_eq (hsp rfl) (hbp rfl))
  | adj =>
    refine andThen_eq_map (hf.operandWord_eq s) fun n => ?_
    rw [(hsp rfl).get, (hsp rfl).set, hf.skipWord_eq]
    rfl
  | lev =>
    simp only [(hbp rfl).get, (hsp rfl).set]
    refine hf.popWord_eq (hsp rfl) fun savedBp u => ?_
    rw [(hbp rfl).set, hf.returnToLink_eq (hsp rfl)]
  | lea =>
    refine andThen_eq_map (hf.operandByte_eq s) fun off => ?_
    rw [hf.skipByte_eq, frameAddress, (hbp rfl).get]
    exact andThen_eq_map (hf.readWord_eq ..) fun w => congrArg HandlerResult.proceed ((hax rfl).set _ w)
  | binary hi op =>
    obtain ⟨hax', hsp'⟩ := usesAx_usesSp_of_binary i hi
    exact hf.binaryOp_eq (hax hax') (hsp hsp') op s
  | reserved =>
    rw [raiseReserved, hf.cfg]
    rfl
  | exit => rfl

/-- `f` touches none of the fields the two halts write. -/
structure CommutesWithHalts (f : State → State) : Prop where
  fault : ∀ p d s, takeFault p d (f s) = f (takeFault p d s)
  exit : ∀ s, takeExit (f s) = f (takeExit s)

/-- `exec` under an `f` that changes no field the instruction or a halt uses. -/
theorem exec_eq_mapNext {i : Instr} {f : State → State} (hr : Respects f i) (hhalt : CommutesWithHalts f) (s : State) :
    exec i (f s) = mapNext f (exec i s) := by
  obtain ⟨h, hh, hexec⟩ := exists_handler i
  rw [hexec, hexec, hh.map_eq hr]
  cases h s with
  | proceed t => rfl
  | fault d t =>
    rw [HandlerResult.map, concludeHandler_fault, hr.overlay.pc, hhalt.fault]
    rfl
  | exit t =>
    rw [HandlerResult.map, concludeHandler_exit, hhalt.exit]
    rfl

/-- Another value in `bp`. -/
def withBp (v : Word) (s : State) : State := { s with bp := v }

/-- Another value in `ax`. -/
def withAx (v : Word) (s : State) : State := { s with ax := v }

/-- Another value in `sp`. -/
def withSp (v : Word) (s : State) : State := { s with sp := v }

/-- Another lifecycle state and another termination record. -/
def withRecord (l : Lifecycle) (r : Reason) (fi : Option FaultInfo) (ds : List FaultKind) (s : State) : State :=
  { s with lifecycle := l, reason := r, faultInfo := fi, diags := ds }

theorem respects_withBp {i : Instr} (hi : usesBp i = false) (v : Word) : Respects (withBp v) i where
  overlay := ⟨fun _ => rfl, fun _ => rfl, fun _ => rfl, fun _ _ => rfl, fun _ _ => rfl⟩
  ax _ := ⟨fun _ => rfl, fun _ _ => rfl⟩
  sp _ := ⟨fun _ => rfl, fun _ _ => rfl⟩
  bp huses := by simp [hi] at huses

theorem respects_withAx {i : Instr} (hi : usesAx i = false) (v : Word) : Respects (withAx v) i where
  overlay := ⟨fun _ => rfl, fun _ => rfl, fun _ => rfl, fun _ _ => rfl, fun _ _ => rfl⟩
  ax huses := by simp [hi] at huses
  sp _ := ⟨fun _ => rfl, fun _ _ => rfl⟩
  bp _ := ⟨fun _ => rfl, fun _ _ => rfl⟩

theorem respects_withSp {i : Instr} (hi : usesSp i = false) (v : Word) : Respects (withSp v) i where
  overlay := ⟨fun _ => rfl, fun _ => rfl, fun _ => rfl, fun _ _ => rfl, fun _ _ => rfl⟩
  ax _ := ⟨fun _ => rfl, fun _ _ => rfl⟩
  sp huses := by simp [hi] at huses
  bp _ := ⟨fun _ => rfl, fun _ _ => rfl⟩

theorem respects_withRecord (i : Instr) (l : Lifecycle) (r : Reason) (fi : Option FaultInfo) (ds : List FaultKind) :
    Respects (withRecord l r fi ds) i where
  overlay := ⟨fun _ => rfl, fun _ => rfl, fun _ => rfl, fun _ _ => rfl, fun _ _ => rfl⟩
  ax _ := ⟨fun _ => rfl, fun _ _ => rfl⟩
  sp _ := ⟨fun _ => rfl, fun _ _ => rfl⟩
  bp _ := ⟨fun _ => rfl, fun _ _ => rfl⟩

theorem exec_withBp {i : Instr} (hi : usesBp i = false) (v : Word) (s : State) :
    exec i (withBp v s) = mapNext (withBp v) (exec i s) :=
  exec_eq_mapNext (respects_withBp hi v) ⟨fun _ _ _ => rfl, fun _ => rfl⟩ s

theorem exec_withAx {i : Instr} (hi : usesAx i = false) (v : Word) (s : State) :
    exec i (withAx v s) = mapNext (withAx v) (exec i s) :=
  exec_eq_mapNext (respects_withAx hi v) ⟨fun _ _ _ => rfl, fun _ => rfl⟩ s

theorem exec_withSp {i : Instr} (hi : usesSp i = false) (v : Word) (s : State) :
    exec i (withSp v s) = mapNext (withSp v) (exec i s) :=
  exec_eq_mapNext (respects_withSp hi v) ⟨fun _ _ _ => rfl, fun _ => rfl⟩ s

theorem usesBp_eq_true_iff (i : Instr) : usesBp i = true ↔ i = .ent ∨ i = .lev ∨ i = .lea := by
  cases i <;> decide

/-- An instruction that does not use `bp` leaves it: run with the `bp` the state has, it leaves that one. -/
theorem bp_of_exec {i : Instr} (hi : usesBp i = false) {s t : State} (h : exec i s = .next t) : t.bp = s.bp := by
  have hmap : exec i s = mapNext (withBp s.bp) (exec i s) := exec_withBp hi s.bp s
  rw [h] at hmap
  injection hmap with ht
  rw [ht]
  rfl

/-- LEA reads `bp` and leaves it. -/
theorem bp_of_exec_lea {s t : State} (h : exec .lea s = .next t) : t.bp = s.bp := by
  refine HandlerResult.Ends.of_conclude (P := fun u => u.bp = s.bp) ?_ (fun _ _ _ hu => hu) (fun _ hu => hu) h
  exact .andThen rfl fun _ _ => .andThen rfl fun _ _ => rfl

/-- Settles O47: by non-interference in `bp`, and by the handler of LEA. -/
theorem bpTouchedOnlyByEntLevLea : Obligations.BpTouchedOnlyByEntLevLea := by
  have hunused {i : Instr} (hent : i ≠ .ent) (hlev : i ≠ .lev) (hlea : i ≠ .lea) : usesBp i = false :=
    Bool.eq_false_iff.2 fun huses => by
      rcases (usesBp_eq_true_iff i).1 huses with h | h | h
      exacts [hent h, hlev h, hlea h]
  refine ⟨fun i s t hent hlev hexec => ?_, fun i s v hent hlev hlea => exec_withBp (hunused hent hlev hlea) v s⟩
  by_cases hlea : i = .lea
  · subst hlea
    exact bp_of_exec_lea hexec
  · exact bp_of_exec (hunused hent hlev hlea) hexec

/-- PUSH, JZ and JNZ read `ax` and leave it. -/
theorem ax_of_exec {i : Instr} (hi : i = .push ∨ i = .jz ∨ i = .jnz) {s t : State} (h : exec i s = .next t) :
    t.ax = s.ax := by
  rcases hi with rfl | hjump
  · refine HandlerResult.Ends.of_conclude (P := fun u => u.ax = s.ax) ?_ (fun _ _ _ hu => hu) (fun _ hu => hu) h
    exact ends_pushWord rfl fun _ _ => rfl
  · rw [exec_jz_jnz hjump] at h
    refine HandlerResult.Ends.of_conclude (P := fun u => u.ax = s.ax) ?_ (fun _ _ _ hu => hu) (fun _ hu => hu) h
    exact ends_jumpIfZero rfl (fun _ => rfl) rfl

/-- Settles O48: by non-interference in `ax`, and by the handlers of the three that only read it. -/
theorem axTouchedOnlyByItsInstructions : Obligations.AxTouchedOnlyByItsInstructions := by
  have hunused : ∀ i ∈ [Instr.jmp, .call, .ent, .adj, .lev, .open_, .read, .clos, .prtf, .malc, .mset, .mcmp, .exit],
      usesAx i = false := by decide
  exact ⟨fun i s v hi => exec_withAx (hunused i hi) v s, fun _ _ _ hi h => ax_of_exec hi h⟩

/-- SC and SI read `sp` and leave it. -/
theorem sp_of_exec {i : Instr} (hi : i = .sc ∨ i = .si) {s t : State} (h : exec i s = .next t) : t.sp = s.sp := by
  rcases hi with rfl | rfl <;>
    refine HandlerResult.Ends.of_conclude (P := fun u => u.sp = s.sp) ?_ (fun _ _ _ hu => hu) (fun _ hu => hu) h
  · exact ends_writeByte rfl fun _ _ => rfl
  · exact ends_writeWord rfl fun _ _ => rfl

/-- Settles O49: by non-interference in `sp`, and by the handlers of the two that only read it. -/
theorem spTouchedOnlyByItsInstructions : Obligations.SpTouchedOnlyByItsInstructions := by
  have hunused : ∀ i ∈ [Instr.imm, .lc, .li, .jmp, .jz, .jnz, .lea, .open_, .read, .clos, .prtf, .malc, .mset, .mcmp, .exit],
      usesSp i = false := by decide
  exact ⟨fun i s v hi => exec_withSp (hunused i hi) v s, fun _ _ _ hi h => sp_of_exec hi h⟩

/-- A handler leaves the lifecycle state and the termination record that it started with. -/
theorem Handles.map_withRecord_self {i : Instr} {h : State → HandlerResult} (hh : Handles i h) (s : State) :
    h s = (h s).map (withRecord s.lifecycle s.reason s.faultInfo s.diags) :=
  hh.map_eq (respects_withRecord ..) s

theorem record_of_eq_withRecord {t : State} {l : Lifecycle} {r : Reason} {fi : Option FaultInfo} {ds : List FaultKind}
    (h : t = withRecord l r fi ds t) : t.lifecycle = l ∧ t.reason = r ∧ t.faultInfo = fi ∧ t.diags = ds :=
  ⟨congrArg State.lifecycle h, congrArg State.reason h, congrArg State.faultInfo h, congrArg State.diags h⟩

/-- Settles O20: under another lifecycle state and another record the handler's answer has those in place of the first, and
nothing else differs; then by the way it ends. -/
theorem handlersReadOnlyRegistersAndMemory : Obligations.HandlersReadOnlyRegistersAndMemory := by
  intro i s l r fi ds
  obtain ⟨h, hh, hexec⟩ := exists_handler i
  have hself := hh.map_withRecord_self s
  have hother : h (withRecord l r fi ds s) = (h s).map (withRecord l r fi ds) := hh.map_eq (respects_withRecord ..) s
  have hexec' : exec i (withRecord l r fi ds s) =
      concludeHandler (withRecord l r fi ds s) ((h s).map (withRecord l r fi ds)) := by rw [hexec, hother]
  rw [hexec]
  cases hres : h s with
  | proceed t =>
    rw [hres] at hself hexec'
    injection hself with ht
    obtain ⟨hl, hr, hinfo, hdiags⟩ := record_of_eq_withRecord ht
    exact ⟨t, withRecord l r fi ds t, rfl, hexec', ⟨rfl, rfl, rfl, rfl, rfl, rfl⟩,
      .inl ⟨hl, hr, hinfo, hdiags, rfl, rfl, rfl, rfl⟩⟩
  | fault d t =>
    rw [hres] at hself hexec'
    injection hself with _ ht
    obtain ⟨-, -, -, hdiags⟩ := record_of_eq_withRecord ht
    have hadded : (takeFault (some (s.pc - 1)) d t).diags = s.diags ++ [d.kind] := by rw [takeFault_diags, hdiags]
    exact ⟨_, _, rfl, hexec', ⟨rfl, rfl, rfl, rfl, rfl, rfl⟩,
      .inr ⟨rfl, rfl, rfl, .inr ⟨s.pc - 1, d, rfl, rfl, rfl, hadded, rfl⟩⟩⟩
  | exit t =>
    rw [hres] at hself hexec'
    injection hself with ht
    obtain ⟨-, -, hinfo, hdiags⟩ := record_of_eq_withRecord ht
    exact ⟨_, _, rfl, hexec', ⟨rfl, rfl, rfl, rfl, rfl, rfl⟩,
      .inr ⟨rfl, rfl, rfl, .inl ⟨rfl, hinfo, rfl, hdiags, rfl⟩⟩⟩

end Sys2Proof.Machine
end
